-- ==== Sys2Proof/Word.lean ====
section
/-! DEFINITION. The widths of the CHIP-8 FDE unit (rule R6): a general register and a memory byte are 8 bits (XLEN), the
index register, the program counter and an instruction word are 16 bits (ILEN, PCLEN, R80), and a register is named by one of
16 indices (NREG). Every value is unsigned (R9). -/

namespace Sys2Proof

/-- One memory byte or the contents of one general register: 8 bits (R20, R25). -/
abbrev Byte := BitVec 8

/-- The 16-bit word: an instruction (R80), the program counter (R23), the index register (R22). -/
abbrev Word := BitVec 16

/-- The index of a general register, 0x0 to 0xF (R20). -/
abbrev Reg := Fin 16

end Sys2Proof
end

