-- ==== Sys2Proof/Machine/Flags.lean ====
section
/-! DEFINITION. The values written to V[0xF] (R24), each exactly 0 or 1, and the 9-bit intermediates they are taken from. -/

namespace Sys2Proof.Machine

/-- A flag as a register value: 1 or 0. -/
def flagByte (b : Bool) : Byte := if b then 1 else 0

/-- The 9-bit sum of rule R135. -/
def addWide (a b : Byte) : BitVec 9 := a.setWidth 9 + b.setWidth 9

/-- The 9-bit intermediate `a + 256 - b` of rules R136 and R138. -/
def subWide (a b : Byte) : BitVec 9 := a.setWidth 9 + 256 - b.setWidth 9

/-- The low 8 bits of an intermediate: `& 0xFF`. -/
def lowByte (t : BitVec 9) : Byte := t.setWidth 8

/-- Bit 8 of an intermediate: the carry-out (R135), or 1 when there was no borrow (R136, R138). -/
def ninthBit (t : BitVec 9) : Byte := flagByte (t.getLsbD 8)

/-- The bit a right shift loses (R137). -/
def shiftedOutLow (a : Byte) : Byte := flagByte (a.getLsbD 0)

/-- The bit a left shift loses, normalised to 0 or 1 (R139). -/
def shiftedOutHigh (a : Byte) : Byte := flagByte (a.getLsbD 7)

/-- The value the logical operations leave in V[0xF] (R132 to R134). -/
def logicFlag : Byte := 0

end Sys2Proof.Machine
end

