-- ==== Sys2Proof/Config.lean ====
section
/-! DEFINITION. The fixed parameters of rule R6 and the type of the open parameters of rule R7. The fixed ones are constants.
The open ones (FB_W, FB_H, IPF) are one record, `Params`, that a state carries and no step writes, so that a statement about
every state is a statement about every choice of them (DESIGN CHOICE, safe: log entry 1). FB_INIT is the argument of
`Machine.State.powerOn`. -/

namespace Sys2Proof.Config

/-- MEM_SIZE (R6): the bytes of memory, addresses 0x000 to 0xFFF. -/
abbrev memSize : Nat := 4096

/-- LOAD_ADDR (R6): the address of the first program byte and the reset value of the program counter. -/
abbrev loadAddr : Nat := 0x200

/-- MAX_LOAD (R6): the longest program that a load accepts, `4096 - 0x200` bytes. -/
abbrev maxLoad : Nat := 3584

/-- INSTR_BYTES (R6): the length of every instruction. -/
abbrev instrBytes : Nat := 2

/-- SPRITE_W (R6): the pixels of one sprite row. -/
abbrev spriteW : Nat := 8

/-- MAX_ROWS (R6): the largest row count an instruction can hold. -/
abbrev maxRows : Nat := 15

end Sys2Proof.Config

namespace Sys2Proof

/-- The open parameters of rule R7, fixed for one unit. Their defaults are the spec's: 64 by 32 pixels, one instruction per
frame. -/
structure Params where
  /-- FB_W: the framebuffer's width in pixels. -/
  fbW : Nat := 64
  /-- FB_H: the framebuffer's height in pixels. -/
  fbH : Nat := 32
  /-- IPF: the steps of one batch (R105). -/
  ipf : Nat := 1
  deriving DecidableEq, Repr

/-- The constraints of rule R7: FB_W >= 8, FB_H >= 15, IPF >= 1. -/
def Params.wf (p : Params) : Bool :=
  decide (8 ≤ p.fbW) && decide (15 ≤ p.fbH) && decide (1 ≤ p.ipf)

end Sys2Proof
end

