-- ==== Sys2Proof/Syntax.lean ====
section
/-! DEFINITION. The instruction set as syntax: one constructor per row of rule R86 and of spec/opcode_table.json. Register
fields are indices (R82), NN and NNN keep the width of their fields, and the row count of a draw is a number whose bound
WellFormed states. -/

namespace Sys2Proof

/-- The 14 instructions of rule R86. `x` and `y` are the X and Y fields. -/
inductive Instr where
  /-- 1NNN, `JP nnn` (R110). -/
  | jp (nnn : BitVec 12)
  /-- 3XNN, `SE Vx, nn` (R111). -/
  | se (x : Reg) (nn : Byte)
  /-- 6XNN, `LDI Vx, nn` (R120). -/
  | ldi (x : Reg) (nn : Byte)
  /-- 7XNN, `ADDI Vx, nn` (R121). -/
  | addi (x : Reg) (nn : Byte)
  /-- 8XY0, `MOV Vx, Vy` (R131). -/
  | mov (x y : Reg)
  /-- 8XY1, `OR Vx, Vy` (R132). -/
  | or (x y : Reg)
  /-- 8XY2, `AND Vx, Vy` (R133). -/
  | and (x y : Reg)
  /-- 8XY3, `XOR Vx, Vy` (R134). -/
  | xor (x y : Reg)
  /-- 8XY4, `ADD Vx, Vy` (R135). -/
  | add (x y : Reg)
  /-- 8XY5, `SUB Vx, Vy` (R136). -/
  | sub (x y : Reg)
  /-- 8XY6, `SHR Vx` (R137); `y` is the ignored field of rule R87, kept so that no bit of the word is lost. -/
  | shr (x y : Reg)
  /-- 8XY7, `SUBN Vx, Vy` (R138). -/
  | subn (x y : Reg)
  /-- 8XYE, `SHL Vx` (R139); `y` is the ignored field of rule R87. -/
  | shl (x y : Reg)
  /-- DXYN, `DRW Vx, Vy, n` (R150); `n` is the row count. -/
  | drw (x y : Reg) (n : Nat)
  deriving DecidableEq, Repr

end Sys2Proof
end

