-- ==== Sys2Proof/WellFormed.lean ====
section
/-! DEFINITION. Which terms of `Instr` are instructions. The types already bound X, Y, NN and NNN; the one check left is that a
draw's row count fits the N field, 0 to 15 (R6 MAX_ROWS, R82). Every Y is legal in the shifts (R87) and a draw of zero rows is
legal (R160). -/

namespace Sys2Proof

/-- The row count of a draw is at most MAX_ROWS. -/
def Instr.rowCountFits : Instr → Bool
  | .drw _ _ n => decide (n ≤ Config.maxRows)
  | .jp _ | .se _ _ | .ldi _ _ | .addi _ _ | .mov _ _ | .or _ _ | .and _ _ | .xor _ _ | .add _ _ | .sub _ _ | .shr _ _
  | .subn _ _ | .shl _ _ => true

/-- The instruction has an encoding: all its fields fit. -/
def Instr.wellFormed (i : Instr) : Bool :=
  i.rowCountFits

end Sys2Proof
end

