-- ==== Sys2Proof/Decode.lean ====
section
/-! DEFINITION. Decoding and encoding. Field extraction is rule R82, the formats rule R81, the two-level dispatch rules R84 and
R85, the decode function rule R90, the illegal words rule R88, and the byte order of an instruction rule R50. Decoding reads
nothing but the word. The encoder is written from the formats of rule R81 and the rows of rule R86. -/

namespace Sys2Proof

/-- Why bytes are no instruction: the `Illegal(word)` of rule R90 with the reason rule R88 gives, or too few bytes. -/
inductive DecodeReject where
  /-- A word of a family that rule R86 does not list: 0x0, 0x2, 0x4, 0x5, 0x9, 0xA, 0xB, 0xC, 0xE, 0xF. -/
  | unlistedFamily (w : Word)
  /-- A word of family 0x8 whose low nibble is 0x8 to 0xD or 0xF. -/
  | unlistedSubOperation (w : Word)
  /-- Fewer than the two bytes of an instruction (R80). -/
  | truncated
  deriving DecidableEq, Repr

/-- What the decoder answers. -/
inductive Decoded (α : Type) where
  | ok (a : α)
  | reject (r : DecodeReject)
  deriving DecidableEq, Repr

/-! ## Fields (R82) -/

/-- `(instr & 0xF000) >> 12`. -/
def family (w : Word) : BitVec 4 := w.extractLsb' 12 4

/-- `(instr & 0x0F00) >> 8`, a register index. -/
def fieldX (w : Word) : Reg := (w.extractLsb' 8 4).toFin

/-- `(instr & 0x00F0) >> 4`, a register index. -/
def fieldY (w : Word) : Reg := (w.extractLsb' 4 4).toFin

/-- `instr & 0x00FF`. -/
def fieldNN (w : Word) : Byte := w.extractLsb' 0 8

/-- `instr & 0x0FFF`. -/
def fieldNNN (w : Word) : BitVec 12 := w.extractLsb' 0 12

/-- `instr & 0x000F`: the sprite height, or the sub-operation of family 0x8. -/
def fieldN (w : Word) : BitVec 4 := w.extractLsb' 0 4

/-! ## Decoding -/

/-- The second level of the dispatch, family 0x8: the low nibble selects the sub-operation (R85, R88). -/
def decodeAlu (w : Word) : Decoded Instr :=
  match (fieldN w).toNat with
  | 0x0 => .ok (.mov (fieldX w) (fieldY w))
  | 0x1 => .ok (.or (fieldX w) (fieldY w))
  | 0x2 => .ok (.and (fieldX w) (fieldY w))
  | 0x3 => .ok (.xor (fieldX w) (fieldY w))
  | 0x4 => .ok (.add (fieldX w) (fieldY w))
  | 0x5 => .ok (.sub (fieldX w) (fieldY w))
  | 0x6 => .ok (.shr (fieldX w) (fieldY w))
  | 0x7 => .ok (.subn (fieldX w) (fieldY w))
  | 0xE => .ok (.shl (fieldX w) (fieldY w))
  | _ => .reject (.unlistedSubOperation w)

/-- `Decode(w)` of rule R90: the first level of the dispatch, on the high nibble (R84). -/
def decodeWord (w : Word) : Decoded Instr :=
  match (family w).toNat with
  | 0x1 => .ok (.jp (fieldNNN w))
  | 0x3 => .ok (.se (fieldX w) (fieldNN w))
  | 0x6 => .ok (.ldi (fieldX w) (fieldNN w))
  | 0x7 => .ok (.addi (fieldX w) (fieldNN w))
  | 0x8 => decodeAlu w
  | 0xD => .ok (.drw (fieldX w) (fieldY w) (fieldN w).toNat)
  | _ => .reject (.unlistedFamily w)

/-- A word from the byte at the lower address and the byte after it, big-endian (R50, decision D1: log entry 8). -/
def wordOfBytes (hi lo : Byte) : Word := hi ++ lo

/-- The two bytes of a word in address order, big-endian (R50, decision D1: log entry 8). -/
def bytesOfWord (w : Word) : List Byte := [w.extractLsb' 8 8, w.extractLsb' 0 8]

/-- Decoding at the front of a byte sequence: the instruction and the bytes after it. -/
def decodeBytes : List Byte → Decoded (Instr × List Byte)
  | hi :: lo :: rest =>
    match decodeWord (wordOfBytes hi lo) with
    | .ok i => .ok (i, rest)
    | .reject r => .reject r
  | [_] | [] => .reject .truncated

/-! ## Encoding (R81) -/

/-- Format NNN. -/
def formatNNN (fam : BitVec 4) (nnn : BitVec 12) : Word := fam ++ nnn

/-- Format XNN. -/
def formatXNN (fam : BitVec 4) (x : Reg) (nn : Byte) : Word := fam ++ (BitVec.ofFin x : BitVec 4) ++ nn

/-- Format XY (the low nibble is a sub-operation) and format XYN (it is the row count). -/
def formatXYN (fam : BitVec 4) (x y : Reg) (n : BitVec 4) : Word :=
  fam ++ (BitVec.ofFin x : BitVec 4) ++ (BitVec.ofFin y : BitVec 4) ++ n

/-- The word of an instruction: the family and sub-operation columns of rule R86 in the formats of rule R81. -/
def encodeWord : Instr → Word
  | .jp nnn => formatNNN 0x1 nnn
  | .se x nn => formatXNN 0x3 x nn
  | .ldi x nn => formatXNN 0x6 x nn
  | .addi x nn => formatXNN 0x7 x nn
  | .mov x y => formatXYN 0x8 x y 0x0
  | .or x y => formatXYN 0x8 x y 0x1
  | .and x y => formatXYN 0x8 x y 0x2
  | .xor x y => formatXYN 0x8 x y 0x3
  | .add x y => formatXYN 0x8 x y 0x4
  | .sub x y => formatXYN 0x8 x y 0x5
  | .shr x y => formatXYN 0x8 x y 0x6
  | .subn x y => formatXYN 0x8 x y 0x7
  | .shl x y => formatXYN 0x8 x y 0xE
  | .drw x y n => formatXYN 0xD x y (BitVec.ofNat 4 n)

/-- The bytes of an instruction in address order (R50, R80). -/
def encode (i : Instr) : List Byte := bytesOfWord (encodeWord i)

/-! ## The opcode map as a table (R86) -/

/-- One row of rule R86: a word is the row's instruction when its masked bits equal `value`. -/
structure OpcodeRow where
  mnemonic : String
  mask : Word
  value : Word
  deriving DecidableEq, Repr

/-- The word belongs to the row. -/
def OpcodeRow.holds (r : OpcodeRow) (w : Word) : Bool := (w &&& r.mask) == r.value

/-- The mask and match columns of rule R86, row by row. -/
def opcodeRows : List OpcodeRow :=
  [⟨"JP", 0xF000, 0x1000⟩, ⟨"SE", 0xF000, 0x3000⟩, ⟨"LDI", 0xF000, 0x6000⟩, ⟨"ADDI", 0xF000, 0x7000⟩,
   ⟨"MOV", 0xF00F, 0x8000⟩, ⟨"OR", 0xF00F, 0x8001⟩, ⟨"AND", 0xF00F, 0x8002⟩, ⟨"XOR", 0xF00F, 0x8003⟩,
   ⟨"ADD", 0xF00F, 0x8004⟩, ⟨"SUB", 0xF00F, 0x8005⟩, ⟨"SHR", 0xF00F, 0x8006⟩, ⟨"SUBN", 0xF00F, 0x8007⟩,
   ⟨"SHL", 0xF00F, 0x800E⟩, ⟨"DRW", 0xF000, 0xD000⟩]

/-- The mnemonic of an instruction's row (R91). -/
def Instr.mnemonic : Instr → String
  | .jp _ => "JP"
  | .se _ _ => "SE"
  | .ldi _ _ => "LDI"
  | .addi _ _ => "ADDI"
  | .mov _ _ => "MOV"
  | .or _ _ => "OR"
  | .and _ _ => "AND"
  | .xor _ _ => "XOR"
  | .add _ _ => "ADD"
  | .sub _ _ => "SUB"
  | .shr _ _ => "SHR"
  | .subn _ _ => "SUBN"
  | .shl _ _ => "SHL"
  | .drw _ _ _ => "DRW"

/-- The instruction the decoder reads from a row's word, numbered as spec/opcode_table.json numbers its bits: the word's bits
above `nbits` are zero, its two bytes are laid out big-endian and given to `decodeBytes`. -/
def decodeTableWord (nbits w : Nat) : Option Instr :=
  match decodeBytes (bytesOfWord (BitVec.ofNat 16 (w % 2 ^ nbits))) with
  | .ok (i, _) => some i
  | .reject _ => none

end Sys2Proof
end

