-- ==== Sys2Proof/Machine/State.lean ====
section
/-! DEFINITION. The state of the CHIP-8 FDE unit: the tuple `(V[0..15], I, pc, MEM, FB, RUN, FAULT)` of 10_state.md, which says
that nothing else is state, and beside it the open parameters of rule R7, which the spec makes an argument of the step and no
step writes. -/

namespace Sys2Proof.Machine

/-- The memory image MEM (R25, R54): the bytes that are not 0x00, at strictly rising addresses 0x000 to 0xFFF. An unlisted
address reads as 0x00, the value rule R210 gives every byte at reset (log entry 3). -/
abbrev Memory := List Host.Cell

/-- A pixel's place: column (growing right) and row (growing down), (0, 0) the top left (R26). -/
abbrev Pixel := Nat × Nat

/-- The framebuffer FB (R26): the set pixels, row by row from the top, each row from the left. A pixel not listed is unset (log
entry 4). -/
abbrev Framebuffer := List Pixel

/-- RUN (R27). -/
inductive RunStatus where
  /-- RUN = 1. -/
  | running
  /-- RUN = 0. -/
  | faulted
  deriving DecidableEq, Repr

/-- FAULT.cause (R28) and the fault classes of rule R180; the numeric codes are `FaultCause.code`. -/
inductive FaultCause where
  /-- Code 0: no fault. -/
  | none
  /-- Code 1: the result of a refused load, never in the FAULT record of a unit that a load left running (R181). -/
  | loadError
  /-- Code 2: the fetched word is no instruction (R182). -/
  | decodeError
  /-- Code 3: an address above 4095 (R183). -/
  | addressError
  deriving DecidableEq, Repr

/-- The FAULT record (R28). -/
structure FaultRecord where
  cause : FaultCause
  /-- The pc of the instruction whose step faulted. -/
  pc : Word
  /-- The word (DecodeError) or the lowest address above 4095 (AddressError). -/
  info : Word
  deriving DecidableEq, Repr

/-- The whole state of the unit. -/
structure State where
  /-- V[0] to V[15] (R20); V[0xF] is also the flag (R24). -/
  v : Vector Byte 16
  /-- I, the index register (R22). -/
  index : Word
  /-- pc (R23). -/
  pc : Word
  /-- MEM (R25). -/
  mem : Memory
  /-- FB (R26). -/
  fb : Framebuffer
  /-- RUN (R27). -/
  run : RunStatus
  /-- FAULT (R28). -/
  fault : FaultRecord
  /-- FB_W, FB_H and IPF (R7): fixed for one unit, written by no step, load or reset. -/
  params : Params
  deriving DecidableEq, Repr

/-- Why a step has no next state. Everything the spec calls a fault is a NEXT state, the fault entry of rule R185; this is
the one step after it (log entry 2). -/
inductive Fault where
  /-- Raised by `step` alone, when RUN = 0: the result `Halted` of rule R104, "a faulted state has no step". Safe: it is the
  spec's own stop. The state is unchanged and stays available to `specStep`. -/
  | halted
  deriving DecidableEq, Repr

/-- Why an instruction has no meaning here. -/
inductive Refusal where
  /-- Raised by an arm of `exec` whose instruction has no meaning yet. Safe. No arm raises it: every instruction has one. -/
  | notModelled (mnemonic : String)
  deriving DecidableEq, Repr

/-- FAULT after reset (R30): (0, 0, 0). -/
def FaultRecord.clear : FaultRecord :=
  { cause := .none, pc := 0, info := 0 }

/-- Power-on (R30, R210, R211): the start-up values with the open parameters and the launch framebuffer FB_INIT given. I is 0 by
decision D13 (log entry 9). -/
def State.powerOn (params : Params) (fbInit : Framebuffer) : State :=
  { v := Vector.replicate 16 0
    index := 0
    pc := BitVec.ofNat 16 Config.loadAddr
    mem := []
    fb := fbInit
    run := .running
    fault := FaultRecord.clear
    params := params }

/-- The machine right after power-on with the default parameters of rule R7: 64 by 32 pixels, all unset, IPF = 1
(log entries 1 and 10). -/
def State.reset : State :=
  State.powerOn {} []

end Sys2Proof.Machine
end

