-- ==== Sys2Proof/Machine/Ops.lean ====
section
/-! DEFINITION. The operations every instruction shares: registers (R20), the program counter (R23, R102), memory (R25, R50 to
R54, R62), the framebuffer (R26), fault entry (R185) and the reset that alone leaves a faulted state (R188, R210). -/

namespace Sys2Proof.Machine

/-! ## Registers -/

/-- V[0xF] (R24). -/
abbrev flagReg : Reg := 0xF

/-- `V[r]` (R10, R20). -/
def State.readV (s : State) (r : Reg) : Byte := s.v[r]

/-- `V[r] <- b` (R10, R20). -/
def State.writeV (s : State) (r : Reg) (b : Byte) : State := { s with v := s.v.set r b }

/-- `pc <- pc + k` on 16 bits (R23, R140). -/
def State.advancePc (s : State) (k : Nat) : State := { s with pc := s.pc + BitVec.ofNat 16 k }

/-- `pc <- target` (R10). -/
def State.jumpTo (s : State) (target : Word) : State := { s with pc := target }

/-- The state with another memory image. -/
def State.withMem (s : State) (m : Memory) : State := { s with mem := m }

/-- The state with another framebuffer. -/
def State.withFb (s : State) (fb : Framebuffer) : State := { s with fb := fb }

/-! ## Memory -/

/-- What is stored at an address: an unlisted one holds 0x00 (R210). -/
def Memory.peek : Memory → Nat → Byte
  | [], _ => 0
  | c :: m, a => if c.1 = a then c.2 else Memory.peek m a

/-- One byte at an address; none where no byte exists, above 4095 (R53, R54). -/
def Memory.readByte (m : Memory) (a : Nat) : Option Byte :=
  if a < Config.memSize then some (m.peek a) else none

/-- Put a cell in its place by address. -/
def Memory.insertCell (c : Host.Cell) : Memory → Memory
  | [] => [c]
  | d :: m => if c.1 < d.1 then c :: d :: m else d :: Memory.insertCell c m

/-- Store one byte, keeping the canonical form: no cell twice, no cell of 0x00, nothing above 4095. -/
def Memory.writeByte (m : Memory) (a : Nat) (b : Byte) : Memory :=
  if a < Config.memSize then
    let others := m.filter (fun c => c.1 != a)
    if b = 0 then others else Memory.insertCell (a, b) others
  else m

/-- The canonical form: strictly rising addresses below 4096, no cell of 0x00. -/
def Memory.wf (m : Memory) : Bool :=
  decide (m.Pairwise (fun c d => c.1 < d.1)) && m.all (fun c => decide (c.1 < Config.memSize) && c.2 != 0)

/-- The bytes at `a`, `a + 1`, ... `a + n - 1`. -/
def Memory.peekRange (m : Memory) (a : Nat) : Nat → List Byte
  | 0 => []
  | n + 1 => m.peek a :: Memory.peekRange m (a + 1) n

/-- The answer of an access: its value, or the lowest address above 4095 that it needed (R28). -/
inductive Access (α : Type) where
  | ok (a : α)
  | outside (lowest : Nat)
  deriving DecidableEq, Repr

/-- `n` byte reads from address `a` (R10 MemRead, R53): the whole range is checked before a byte is read, addresses are natural
numbers that never wrap, and zero bytes need no address. -/
def Memory.readRange (m : Memory) (a n : Nat) : Access (List Byte) :=
  if 1 ≤ n ∧ Config.memSize ≤ a + n - 1 then .outside (max a Config.memSize) else .ok (m.peekRange a n)

/-- `MemWrite` of a byte sequence, byte `i` to address `a + i` (R10, R213). -/
def Memory.writeRange (m : Memory) (a : Nat) : List Byte → Memory
  | [] => m
  | b :: bs => Memory.writeRange (m.writeByte a b) (a + 1) bs

/-- `MemRead(a, 2)` (R10, R50): the big-endian word at `a` and `a + 1`. -/
def Memory.readWord (m : Memory) (a : Nat) : Access Word :=
  match m.readRange a Config.instrBytes with
  | .outside lowest => .outside lowest
  | .ok _ => .ok (wordOfBytes (m.peek a) (m.peek (a + 1)))

/-- `Fetch(pc)` of rule R62: the word at pc, whatever the parity of pc (R51), or the lowest address above 4095. It writes
nothing. -/
def fetch (s : State) : Access Word := s.mem.readWord s.pc.toNat

/-- The state with an instruction word stored, big-endian, where the next fetch reads it. -/
def State.placeWord (s : State) (w : Word) : State :=
  s.withMem (s.mem.writeRange s.pc.toNat (bytesOfWord w))

/-! ## Framebuffer -/

/-- `FB[y][x]` (R10, R26). -/
def Framebuffer.get (fb : Framebuffer) (p : Pixel) : Bool := decide (p ∈ fb)

/-- Scan order: an earlier row, or the same row further left. -/
abbrev scanBefore (p q : Pixel) : Prop := p.2 < q.2 ∨ (p.2 = q.2 ∧ p.1 < q.1)

/-- Put a pixel in its place in scan order; a pixel that is there stays once. -/
def Framebuffer.insertPixel (p : Pixel) : Framebuffer → Framebuffer
  | [] => [p]
  | q :: fb =>
    if p = q then q :: fb
    else if scanBefore p q then p :: q :: fb
    else q :: Framebuffer.insertPixel p fb

/-- `FB[y][x] <- b` (R10). -/
def Framebuffer.set (fb : Framebuffer) (p : Pixel) (b : Bool) : Framebuffer :=
  if b then Framebuffer.insertPixel p fb else fb.filter (fun q => q != p)

/-- The canonical form: scan order, no pixel twice, every pixel inside the grid of rule R26. -/
def Framebuffer.wf (fb : Framebuffer) (p : Params) : Bool :=
  decide (fb.Pairwise scanBefore)
    && fb.all (fun q => decide (q.1 < p.fbW) && decide (q.2 < p.fbH))

/-! ## Faults -/

/-- The numeric codes of rule R180. -/
def FaultCause.code : FaultCause → BitVec 2
  | .none => 0
  | .loadError => 1
  | .decodeError => 2
  | .addressError => 3

/-- FAULT ENTRY (R185), the one way a step faults: RUN <- 0, FAULT.cause, FAULT.pc <- pc, FAULT.info; the registers, I, pc,
memory and the framebuffer stay. -/
def State.takeFault (s : State) (cause : FaultCause) (info : Word) : State :=
  { s with run := .faulted, fault := { cause := cause, pc := s.pc, info := info } }

/-- The AddressError entry (R183) with the lowest address above 4095. -/
def State.takeAddressError (s : State) (lowest : Nat) : State :=
  s.takeFault .addressError (BitVec.ofNat 16 lowest)

/-- The DecodeError entry (R182) with the illegal word. -/
def State.takeDecodeError (s : State) (w : Word) : State :=
  s.takeFault .decodeError w

/-- RESET (R210, R211), the only way out of a faulted state: there is no return from a fault (R188). Every field takes its
start-up value but the framebuffer, which reset does not touch. -/
def State.hostReset (s : State) : State :=
  State.powerOn s.params s.fb

end Sys2Proof.Machine
end

