-- ==== Sys2Proof/Machine/Operands.lean ====
section
/-! DEFINITION. The operand forms of rule R83: registers X and Y, the immediate byte NN, the address NNN zero-extended to pc,
and the implicit sprite of DXYN at I. -/

namespace Sys2Proof.Machine

/-- `zext_16(NNN)` (R83, R110). -/
def jumpTarget (nnn : BitVec 12) : Word := nnn.setWidth 16

/-- The operand pair of family 0x8, both read from the state before the step (R130). -/
def operandPair (x y : Reg) (s : State) : Byte × Byte := (s.readV x, s.readV y)

/-- The draw's origin (column, row) as natural numbers: the full bytes V[X], V[Y], not reduced (R150, R154). -/
def drawOrigin (x y : Reg) (s : State) : Nat × Nat := ((s.readV x).toNat, (s.readV y).toNat)

/-- The sprite rows of a draw, row `r` from MEM[I + r] (R152), or the lowest address above 4095 (R53). -/
def spriteRows (n : Nat) (s : State) : Access (List Byte) := s.mem.readRange s.index.toNat n

end Sys2Proof.Machine
end

