-- ==== Sys2Proof/Machine/Alu.lean ====
section
/-! DEFINITION. The arithmetic and logical family 0x8 (43_alu.md). Every operand is the value before the step, and of two
writes to one register the later one stands (R130): the flag is written last except in the two shifts. -/

namespace Sys2Proof.Machine

/-- `V[X] <- result; V[0xF] <- flag; pc <- pc + 2`: 8XY1 to 8XY5 and 8XY7 (R130). -/
def State.resultThenFlag (s : State) (x : Reg) (result flag : Byte) : State :=
  ((s.writeV x result).writeV flagReg flag).advancePc 2

/-- `V[0xF] <- flag; V[X] <- result; pc <- pc + 2`: 8XY6 and 8XYE (R130). -/
def State.flagThenResult (s : State) (x : Reg) (result flag : Byte) : State :=
  ((s.writeV flagReg flag).writeV x result).advancePc 2

/-- 8XY0 (R131): `V[X] <- V[Y]`, no flag. -/
def execMov (x y : Reg) (s : State) : Host.Outcome State Fault Refusal :=
  .next ((s.writeV x (operandPair x y s).2).advancePc 2)

/-- 8XY1 (R132): `V[X] <- vx | vy; V[0xF] <- 0`. -/
def execOr (x y : Reg) (s : State) : Host.Outcome State Fault Refusal :=
  let (vx, vy) := operandPair x y s
  .next (s.resultThenFlag x (vx ||| vy) logicFlag)

/-- 8XY2 (R133): `V[X] <- vx & vy; V[0xF] <- 0`. -/
def execAnd (x y : Reg) (s : State) : Host.Outcome State Fault Refusal :=
  let (vx, vy) := operandPair x y s
  .next (s.resultThenFlag x (vx &&& vy) logicFlag)

/-- 8XY3 (R134): `V[X] <- vx ^ vy; V[0xF] <- 0`. -/
def execXor (x y : Reg) (s : State) : Host.Outcome State Fault Refusal :=
  let (vx, vy) := operandPair x y s
  .next (s.resultThenFlag x (vx ^^^ vy) logicFlag)

/-- 8XY4 (R135): `sum <- vx + vy` on 9 bits; `V[X] <- sum & 0xFF; V[0xF] <- sum[8]`. -/
def execAdd (x y : Reg) (s : State) : Host.Outcome State Fault Refusal :=
  let (vx, vy) := operandPair x y s
  .next (s.resultThenFlag x (lowByte (addWide vx vy)) (ninthBit (addWide vx vy)))

/-- 8XY5 (R136): `t <- vx + 256 - vy`; `V[X] <- t & 0xFF; V[0xF] <- t[8]`. -/
def execSub (x y : Reg) (s : State) : Host.Outcome State Fault Refusal :=
  let (vx, vy) := operandPair x y s
  .next (s.resultThenFlag x (lowByte (subWide vx vy)) (ninthBit (subWide vx vy)))

/-- 8XY6 (R137): `V[0xF] <- vx[0]; V[X] <- vx >> 1`. Y is ignored (R87). -/
def execShr (x _y : Reg) (s : State) : Host.Outcome State Fault Refusal :=
  let vx := s.readV x
  .next (s.flagThenResult x (vx >>> 1) (shiftedOutLow vx))

/-- 8XY7 (R138): `t <- vy + 256 - vx`; `V[X] <- t & 0xFF; V[0xF] <- t[8]`. -/
def execSubn (x y : Reg) (s : State) : Host.Outcome State Fault Refusal :=
  let (vx, vy) := operandPair x y s
  .next (s.resultThenFlag x (lowByte (subWide vy vx)) (ninthBit (subWide vy vx)))

/-- 8XYE (R139): `V[0xF] <- vx[7]; V[X] <- (vx << 1) & 0xFF`. Y is ignored (R87). -/
def execShl (x _y : Reg) (s : State) : Host.Outcome State Fault Refusal :=
  let vx := s.readV x
  .next (s.flagThenResult x (vx <<< 1) (shiftedOutHigh vx))

end Sys2Proof.Machine
end

