-- ==== Sys2Proof/Machine/ControlTransfer.lean ====
section
/-! DEFINITION. Control transfer (41_control_transfer.md): 1NNN and 3XNN. -/

namespace Sys2Proof.Machine

/-- 1NNN (R110): `pc <- zext_16(NNN)`. -/
def execJp (nnn : BitVec 12) (s : State) : Host.Outcome State Fault Refusal :=
  .next (s.jumpTo (jumpTarget nnn))

/-- 3XNN (R111): `if V[X] = NN then pc <- pc + 4 else pc <- pc + 2`. -/
def execSe (x : Reg) (nn : Byte) (s : State) : Host.Outcome State Fault Refusal :=
  .next (s.advancePc (if s.readV x = nn then 4 else 2))

end Sys2Proof.Machine
end

