-- ==== Sys2Proof/Machine/Draw.lean ====
section
/-! DEFINITION. DXYN and the sprite blitter (44_draw.md): XOR compositing with a collision bit, rows downward, most significant
bit leftmost, wrap per destination pixel. -/

namespace Sys2Proof.Machine

/-- One pixel of a sprite: row `r`, bit position `b` from the left, value. -/
structure SpriteCell where
  r : Nat
  b : Nat
  bit : Bool
  deriving DecidableEq, Repr

/-- The sprite pixel at bit position `b` of a row byte, most significant first (R153): `row[7 - b]`. -/
def spriteBit (row : Byte) (b : Nat) : Bool := row.getLsbD (7 - b)

/-- The sprite's pixels in the order of rule R151: rows from `r` on, increasing (R155), each row from the left. -/
def spriteCells : Nat → List Byte → List SpriteCell
  | _, [] => []
  | r, row :: rows =>
    (List.range Config.spriteW).map (fun b => { r := r, b := b, bit := spriteBit row b }) ++ spriteCells (r + 1) rows

/-- The destination of sprite pixel (r, b), wrapped modulo the framebuffer's size on natural numbers (R154). -/
def destination (p : Params) (origin : Nat × Nat) (c : SpriteCell) : Pixel :=
  ((origin.1 + c.b) % p.fbW, (origin.2 + c.r) % p.fbH)

/-- What a draw carries from pixel to pixel. -/
structure Blitted where
  fb : Framebuffer
  collision : Bool
  deriving DecidableEq, Repr

/-- One pixel of the loop of rule R151: XOR it in, and note a set pixel that a set bit turns off (R156). -/
def blitCell (p : Params) (origin : Nat × Nat) (acc : Blitted) (c : SpriteCell) : Blitted :=
  let d := destination p origin c
  let old := acc.fb.get d
  { fb := acc.fb.set d (old ^^ c.bit), collision := acc.collision || (old && c.bit) }

/-- `Blit(FB, row, n, ox, oy)` of rule R151. -/
def blit (p : Params) (fb : Framebuffer) (rows : List Byte) (origin : Nat × Nat) : Blitted :=
  (spriteCells 0 rows).foldl (blitCell p origin) { fb := fb, collision := false }

/-- DXYN (R150): read the origin and the rows, blit, `V[0xF] <- collision`, `pc <- pc + 2`; a row above address 4095 takes
AddressError before anything is written. -/
def execDrw (x y : Reg) (n : Nat) (s : State) : Host.Outcome State Fault Refusal :=
  match spriteRows n s with
  | .outside a => .next (s.takeAddressError a)
  | .ok rows =>
    let out := blit s.params s.fb rows (drawOrigin x y s)
    .next (((s.withFb out.fb).writeV flagReg (flagByte out.collision)).advancePc 2)

end Sys2Proof.Machine
end

