-- ==== Sys2Proof/Machine/Immediate.lean ====
section
/-! DEFINITION. Immediate instructions (42_immediate.md): 6XNN and 7XNN. Neither writes V[0xF] as a flag. -/

namespace Sys2Proof.Machine

/-- 6XNN (R120): `V[X] <- NN; pc <- pc + 2`. -/
def execLdi (x : Reg) (nn : Byte) (s : State) : Host.Outcome State Fault Refusal :=
  .next ((s.writeV x nn).advancePc 2)

/-- 7XNN (R121): `V[X] <- (V[X] + NN) mod 256; pc <- pc + 2`. -/
def execAddi (x : Reg) (nn : Byte) (s : State) : Host.Outcome State Fault Refusal :=
  .next ((s.writeV x (s.readV x + nn)).advancePc 2)

end Sys2Proof.Machine
end

