-- ==== Sys2Proof/Machine/Step.lean ====
section
/-! DEFINITION. The step of rule R101 and the fixed name `withFetchWord`. -/

namespace Sys2Proof.Machine

/-- One step (R100, R101): halted when RUN = 0 (R104); otherwise fetch, decode, execute. A fetch above address 4095 takes
AddressError, an illegal word takes DecodeError (R187 gives the order). The handler, not the loop, moves pc (R102). -/
def step (s : State) : Host.Outcome State Fault Refusal :=
  match s.run with
  | .faulted => .fault .halted
  | .running =>
    match fetch s with
    | .outside a => .next (s.takeAddressError a)
    | .ok w =>
      match decodeWord w with
      | .reject _ => .next (s.takeDecodeError w)
      | .ok i => exec i s

/-- The state with an instruction, its bits numbered as spec/opcode_table.json numbers them, stored where `step` fetches next. -/
def State.withFetchWord (s : State) (nbits w : Nat) : State :=
  s.placeWord (BitVec.ofNat 16 (w % 2 ^ nbits))

end Sys2Proof.Machine
end

