-- ==== Sys2Proof/Machine/HostInterface.lean ====
section
/-! DEFINITION. The transactions between the unit and its host (R221): the step with its result (R100), the trace (R103), the
batch (R105), the program load (R213), the host-surface calls of a draw (R158), and the order in which the host may make its
moves (R214, R215). Reset is `State.hostReset` (R210). -/

namespace Sys2Proof.Machine

/-! ## The step with its result -/

/-- The trace record of rule R103: the word executed, then V[0] to V[15] and pc after it. -/
structure Trace where
  instr : Word
  v : Vector Byte 16
  pc : Word
  deriving DecidableEq, Repr

/-- The result of a step (R100). -/
inductive StepResult where
  | ok (trace : Trace)
  | fault (report : FaultRecord)
  | halted
  deriving DecidableEq, Repr

/-- The result of a step from `s` that ends in `t`: the trace when it completed, the FAULT record when it entered a fault. -/
def stepReport (s t : State) : StepResult :=
  match t.run, fetch s with
  | .running, .ok w => .ok { instr := w, v := t.v, pc := t.pc }
  | _, _ => .fault t.fault

/-- `Step : State -> State x Result` of rules R100 and R101. -/
def specStep (s : State) : State × StepResult :=
  match step s with
  | .next t => (t, stepReport s t)
  | .fault _ => (s, .halted)
  | .refused _ => (s, .halted)

/-! ## The host surface -/

/-- One call `setPixel(x, y, isSet)` (R158). -/
structure SetPixel where
  at_ : Pixel
  isSet : Bool
  deriving DecidableEq, Repr

/-- The calls a DXYN makes (R158): one for each pixel it touches, with the pixel's final value. Which touched pixels are called
and in what order is not architectural (U19, DESIGN CHOICE, safe: log entry 5). -/
def drawCalls (x y : Reg) (n : Nat) (s : State) : List SetPixel :=
  match spriteRows n s with
  | .outside _ => []
  | .ok rows =>
    let origin := drawOrigin x y s
    let out := blit s.params s.fb rows origin
    (spriteCells 0 rows).map (fun c =>
      { at_ := destination s.params origin c, isSet := out.fb.get (destination s.params origin c) })

/-- The calls of one step: only a DXYN that draws makes any. -/
def stepCalls (s : State) : List SetPixel :=
  match s.run, fetch s with
  | .running, .ok w =>
    match decodeWord w with
    | .ok (.drw x y n) => drawCalls x y n s
    | _ => []
  | _, _ => []

/-- The host's surface after calls. -/
def applyCalls (surface : Framebuffer) (calls : List SetPixel) : Framebuffer :=
  calls.foldl (fun f c => f.set c.at_ c.isSet) surface

/-! ## The batch -/

/-- The result of a batch (R105). -/
inductive BatchResult where
  | ok
  | fault (report : FaultRecord)
  | halted
  deriving DecidableEq, Repr

/-- What a batch leaves and puts out: the state, the result, the trace records and the host-surface calls, in order. -/
structure Batch where
  state : State
  result : BatchResult
  traces : List Trace
  calls : List SetPixel
  deriving DecidableEq, Repr

/-- Up to `k` steps, stopping at the first that is not Ok (the loop of rule R105). -/
def runSteps : Nat → State → Batch
  | 0, s => { state := s, result := .ok, traces := [], calls := [] }
  | k + 1, s =>
    match specStep s with
    | (t, .ok tr) =>
      let rest := runSteps k t
      { rest with traces := tr :: rest.traces, calls := stepCalls s ++ rest.calls }
    | (t, .fault f) => { state := t, result := .fault f, traces := [], calls := [] }
    | (t, .halted) => { state := t, result := .halted, traces := [], calls := [] }

/-- `RunBatch(s)` (R105): up to IPF steps. -/
def runBatch (s : State) : Batch := runSteps s.params.ipf s

/-! ## The program load -/

/-- The result of a load (R213); a LoadError reports the offered length (R180). -/
inductive LoadResult where
  | ok
  | loadError (len : Nat)
  deriving DecidableEq, Repr

/-- `Load(s, bytes)` (R213): refused whole when the program is longer than 3584 bytes (R181), otherwise byte `i` goes to
0x200 + `i`. -/
def load (bytes : List Byte) (s : State) : State × LoadResult :=
  if Config.maxLoad < bytes.length then (s, .loadError bytes.length)
  else (s.withMem (s.mem.writeRange Config.loadAddr bytes), .ok)

/-! ## The order of the host's moves -/

/-- Where the boot sequence of rule R215 stands: a load is allowed only between reset and the first step, one accepted load per
reset (R214). -/
inductive BootPhase where
  /-- After reset, before an accepted load. -/
  | awaitingLoad
  /-- After the accepted load. -/
  | booted
  deriving DecidableEq, Repr

/-- The unit with the phase of its boot. The phase is the host's side of the protocol, no state of the unit. -/
structure Session where
  state : State
  phase : BootPhase
  deriving DecidableEq, Repr

/-- The host's moves (R221). The quit poll is the host's own and moves nothing (R106). -/
inductive HostMove where
  | reset
  | load (bytes : List Byte)
  | runBatch
  deriving DecidableEq, Repr

/-- What the host gets back. -/
inductive HostReply where
  | resetDone
  | loaded (r : LoadResult)
  | ran (r : BatchResult) (traces : List Trace) (calls : List SetPixel)
  deriving DecidableEq, Repr

/-- A session starts with power-on, its reset (R210). -/
def Session.start (params : Params) (fbInit : Framebuffer) : Session :=
  { state := State.powerOn params fbInit, phase := .awaitingLoad }

/-- One move of the host; none where the spec gives it no such move: a load after boot (R214), a batch before it (R215). A
refused load may be followed by another attempt. -/
def Session.move (e : Session) : HostMove → Option (Session × HostReply)
  | .reset => some ({ state := e.state.hostReset, phase := .awaitingLoad }, .resetDone)
  | .load bytes =>
    match e.phase with
    | .booted => none
    | .awaitingLoad =>
      match Sys2Proof.Machine.load bytes e.state with
      | (t, .ok) => some ({ state := t, phase := .booted }, .loaded .ok)
      | (t, .loadError n) => some ({ state := t, phase := .awaitingLoad }, .loaded (.loadError n))
  | .runBatch =>
    match e.phase with
    | .awaitingLoad => none
    | .booted =>
      let b := Sys2Proof.Machine.runBatch e.state
      some ({ state := b.state, phase := .booted }, .ran b.result b.traces b.calls)

end Sys2Proof.Machine
end

