-- ==== Sys2Proof/Safety.lean ====
section
/-! DEFINITION. The words that statements use: the invariant of the unit, what an instruction leaves alone, the sprite as
memory holds it, and a run without a fault. -/

namespace Sys2Proof.Machine

/-- RUN and FAULT agree: FAULT is clear while the unit runs (R30, R210), and once faulted it holds a DecodeError with an illegal
word or an AddressError with an address above 4095, at the pc that still points at the faulting instruction (R28, R185). -/
def State.faultConsistent (s : State) : Bool :=
  match s.run, s.fault.cause with
  | .running, _ => decide (s.fault = FaultRecord.clear)
  | .faulted, .decodeError =>
    decide (s.fault.pc = s.pc) && (match decodeWord s.fault.info with | .reject _ => true | .ok _ => false)
  | .faulted, .addressError => decide (s.fault.pc = s.pc) && decide (Config.memSize ≤ s.fault.info.toNat)
  | .faulted, .none => false
  | .faulted, .loadError => false

/-- The invariant: memory and framebuffer are in canonical form, the open parameters meet their constraints (R7), and RUN and
FAULT agree. -/
structure State.Inv (s : State) : Prop where
  mem : s.mem.wf = true
  fb : s.fb.wf s.params = true
  params : s.params.wf = true
  fault : s.faultConsistent = true

/-- From `s` to `t` nothing changed but pc, the registers in `written` and the framebuffer: every other register, I, every byte
of memory, RUN, FAULT and the open parameters are as before. -/
structure KeepsBut (written : List Reg) (s t : State) : Prop where
  regs : ∀ z, z ∉ written → t.readV z = s.readV z
  index : t.index = s.index
  mem : ∀ a, t.mem.readByte a = s.mem.readByte a
  run : t.run = s.run
  fault : t.fault = s.fault
  params : t.params = s.params

/-- From `s` to `t` nothing changed but pc and the registers in `written`. -/
structure KeepsButRegs (written : List Reg) (s t : State) : Prop extends KeepsBut written s t where
  fb : t.fb = s.fb

/-- Bit position `b` of sprite row `r` of a draw from `s`, as memory holds it at I + `r` (R152, R153). -/
def spritePixel (s : State) (r b : Nat) : Bool :=
  match s.mem.readByte (s.index.toNat + r) with
  | some row => row.getLsbD (7 - b)
  | none => false

/-- The column and row that sprite pixel (r, b) of a draw lands on (R154, R155). -/
def landsOn (x y : Reg) (s : State) (r b : Nat) : Pixel :=
  (((s.readV x).toNat + b) % s.params.fbW, ((s.readV y).toNat + r) % s.params.fbH)

/-- All sprite rows of a draw are in memory (R53). -/
def spriteInRange (n : Nat) (s : State) : Prop := n = 0 ∨ s.index.toNat + n - 1 ≤ 4095

/-- `w[hi:lo]` (R9): the unsigned number of bits hi down to lo. -/
def bitsAt (w : Word) (hi lo : Nat) : Nat := w.toNat / 2 ^ lo % 2 ^ (hi - lo + 1)

/-- The illegal words of rule R88, as that rule lists them. -/
def illegalWord (w : Word) : Bool :=
  [0x0, 0x2, 0x4, 0x5, 0x9, 0xA, 0xB, 0xC, 0xE, 0xF].contains (bitsAt w 15 12) ||
    (bitsAt w 15 12 == 0x8 && [0x8, 0x9, 0xA, 0xB, 0xC, 0xD, 0xF].contains (bitsAt w 3 0))

/-- The registers an instruction may write: the "writes" column of rule R21. -/
def writtenRegs : Instr → List Reg
  | .jp _ | .se _ _ => []
  | .ldi x _ | .addi x _ | .mov x _ => [x]
  | .or x _ | .and x _ | .xor x _ | .add x _ | .sub x _ | .shr x _ | .subn x _ | .shl x _ => [x, flagReg]
  | .drw _ _ _ => [flagReg]

/-- `k` steps from `s` all complete without a fault: every state on the way is running. -/
def runsSafely : Nat → State → Bool
  | 0, s => decide (s.run = .running)
  | k + 1, s =>
    decide (s.run = .running) &&
      match step s with
      | .next t => runsSafely k t
      | .fault _ => false
      | .refused _ => false

end Sys2Proof.Machine
end

