-- ==== Sys2Proof/Certificates/Slice0/Obligations.lean ====
section
/-! DEFINITION. The statements for the provers, each the formal text of the entry of the same name in OBLIGATIONS.json. -/

open Sys2Proof Sys2Proof.Machine

/-! ## Encoding -/

/-- Decoding the bytes of a well-formed instruction, whatever follows them, gives the instruction back. -/
def Obligations.DecodeOfEncodeReturnsInstr : Prop :=
  ∀ (i : Instr) (rest : List Byte), i.wellFormed = true → decodeBytes (encode i ++ rest) = .ok (i, rest)

/-- A word that decodes is the word of the instruction it decodes to, and that instruction is well formed. -/
def Obligations.EncodeOfDecodeReturnsWord : Prop :=
  ∀ (w : Word) (i : Instr), decodeWord w = .ok i → encodeWord i = w ∧ i.wellFormed = true

/-- Rules R82 and R90: with the fields taken by the masks and shifts of R82, decoding is the case table of R90. -/
def Obligations.DecodeFollowsOpcodeMap : Prop :=
  ∀ (w : Word) (x y : Reg) (nn : Byte) (nnn : BitVec 12) (n : Nat),
    x.val = ((w &&& 0x0F00) >>> 8).toNat → y.val = ((w &&& 0x00F0) >>> 4).toNat →
    nn.toNat = (w &&& 0x00FF).toNat → nnn.toNat = (w &&& 0x0FFF).toNat → n = (w &&& 0x000F).toNat →
    decodeWord w =
      match ((w &&& 0xF000) >>> 12).toNat with
      | 0x1 => .ok (.jp nnn)
      | 0x3 => .ok (.se x nn)
      | 0x6 => .ok (.ldi x nn)
      | 0x7 => .ok (.addi x nn)
      | 0x8 =>
        match n with
        | 0x0 => .ok (.mov x y)
        | 0x1 => .ok (.or x y)
        | 0x2 => .ok (.and x y)
        | 0x3 => .ok (.xor x y)
        | 0x4 => .ok (.add x y)
        | 0x5 => .ok (.sub x y)
        | 0x6 => .ok (.shr x y)
        | 0x7 => .ok (.subn x y)
        | 0xE => .ok (.shl x y)
        | _ => .reject (.unlistedSubOperation w)
      | 0xD => .ok (.drw x y n)
      | _ => .reject (.unlistedFamily w)

/-- Words of the spec's decode table (95_test_vectors.md section 2.1, E1 to E14) decode as listed there. -/
def Obligations.DecodesSampleWords : Prop :=
  decodeWord 0x1202 = .ok (.jp 0x202) ∧ decodeWord 0x300A = .ok (.se 0x0 0x0A) ∧
  decodeWord 0x6A07 = .ok (.ldi 0xA 0x07) ∧ decodeWord 0x7AFF = .ok (.addi 0xA 0xFF) ∧
  decodeWord 0x8AB4 = .ok (.add 0xA 0xB) ∧ decodeWord 0x8F06 = .ok (.shr 0xF 0x0) ∧
  decodeWord 0x81FE = .ok (.shl 0x1 0xF) ∧ decodeWord 0xD12F = .ok (.drw 0x1 0x2 0xF) ∧
  decodeWord 0xDAB0 = .ok (.drw 0xA 0xB 0x0) ∧ decodeWord 0x8128 = .reject (.unlistedSubOperation 0x8128) ∧
  decodeWord 0x0000 = .reject (.unlistedFamily 0x0000) ∧ decodeWord 0x00E0 = .reject (.unlistedFamily 0x00E0) ∧
  decodeWord 0xA300 = .reject (.unlistedFamily 0xA300) ∧ decodeWord 0xFFFF = .reject (.unlistedFamily 0xFFFF)

/-! ## Fetch, step and faults -/

/-- Rule R62: a fetch fails exactly from pc = 4095 on, with the lowest address above 4095, and otherwise reads the big-endian
word at pc and pc + 1, whatever the parity of pc. It is the first action of a step: a failed fetch decides it. -/
def Obligations.FetchIsBigEndianInRange : Prop :=
  ∀ s : State,
    (4095 ≤ s.pc.toNat → fetch s = .outside (max s.pc.toNat 4096)) ∧
    (s.pc.toNat < 4095 → ∃ hi lo, s.mem.readByte s.pc.toNat = some hi ∧ s.mem.readByte (s.pc.toNat + 1) = some lo ∧
      fetch s = .ok ((hi.setWidth 16 <<< 8) ||| lo.setWidth 16)) ∧
    (s.run = .running → ∀ a, fetch s = .outside a → step s = .next (s.takeAddressError a))

/-- Rule R53: a fetch goes out of range iff pc >= 4095 and a draw iff N >= 1 and I + N - 1 > 4095, on natural numbers that
never wrap; the draw that does changes nothing but RUN and FAULT. -/
def Obligations.AccessesStayInMemory : Prop :=
  ∀ s : State,
    ((∃ a, fetch s = .outside a) ↔ 4095 ≤ s.pc.toNat) ∧
    ∀ (x y : Reg) (n : Nat),
      exec (.drw x y n) s
          = .next { s with
              run := .faulted
              fault := { cause := .addressError, pc := s.pc, info := BitVec.ofNat 16 (max s.index.toNat 4096) } }
        ↔ 1 ≤ n ∧ 4095 < s.index.toNat + n - 1

/-- When the bytes at pc and pc + 1 of a running unit decode to an instruction, the step is that instruction's meaning, and the
instruction is well formed. Nothing is added around it: the meaning moves pc itself (R102). -/
def Obligations.StepRunsDecodedInstruction : Prop :=
  ∀ (s : State) (hi lo : Byte) (i : Instr),
    s.run = .running → s.mem.readByte s.pc.toNat = some hi → s.mem.readByte (s.pc.toNat + 1) = some lo →
    decodeBytes [hi, lo] = .ok (i, []) → step s = exec i s ∧ i.wellFormed = true

/-- A running unit always has a next state, and no state is refused (R100: the step is total). -/
def Obligations.EveryRunningStepAnswers : Prop :=
  ∀ s : State, (s.run = .running → ∃ t, step s = .next t) ∧ (∀ r, step s ≠ .refused r) ∧
    (∀ t, step s = .next t → (specStep s).1 = t)

/-- Rule R182: a step takes DecodeError iff the fetched word is one of the illegal words of R88; FAULT.info is the word,
FAULT.pc its address, and nothing else changes. -/
def Obligations.IllegalWordTakesDecodeError : Prop :=
  ∀ s : State, s.run = .running →
    (∀ w, fetch s = .ok w → illegalWord w = true →
      step s = .next { s with run := .faulted, fault := { cause := .decodeError, pc := s.pc, info := w } }) ∧
    (∀ t, step s = .next t → t.run = .faulted → t.fault.cause = .decodeError →
      ∃ w, fetch s = .ok w ∧ illegalWord w = true)

/-- Rule R183: a step takes AddressError iff its fetch needs an address above 4095 or it is a draw whose sprite does; FAULT.info
is the lowest such address, FAULT.pc the pc of the step, and nothing else changes. -/
def Obligations.AddressErrorExactlyWhen : Prop :=
  ∀ s : State, s.run = .running →
    (4095 ≤ s.pc.toNat → step s = .next { s with
      run := .faulted
      fault := { cause := .addressError, pc := s.pc, info := BitVec.ofNat 16 (max s.pc.toNat 4096) } }) ∧
    (∀ w x y n, fetch s = .ok w → decodeWord w = .ok (.drw x y n) → 1 ≤ n → 4095 < s.index.toNat + n - 1 →
      step s = .next { s with
        run := .faulted
        fault := { cause := .addressError, pc := s.pc, info := BitVec.ofNat 16 (max s.index.toNat 4096) } }) ∧
    (∀ t, step s = .next t → t.run = .faulted → t.fault.cause = .addressError →
      4095 ≤ s.pc.toNat ∨
        ∃ w x y n, fetch s = .ok w ∧ decodeWord w = .ok (.drw x y n) ∧ 1 ≤ n ∧ 4095 < s.index.toNat + n - 1)

/-- Rule R185: after a step that faults, registers, I, pc, memory and framebuffer are as before; RUN is 0; FAULT holds the code
(2 with the fetched word, 3 with an address above 4095) and the pc; and the step's result reports FAULT. -/
def Obligations.FaultEntryIsPrecise : Prop :=
  ∀ s t : State, s.run = .running → step s = .next t → t.run = .faulted →
    (∀ z, t.readV z = s.readV z) ∧ t.index = s.index ∧ t.pc = s.pc ∧ t.mem = s.mem ∧
    (∀ a, t.mem.readByte a = s.mem.readByte a) ∧ t.fb = s.fb ∧ t.params = s.params ∧ t.fault.pc = s.pc ∧
    ((t.fault.cause.code = 2 ∧ fetch s = .ok t.fault.info) ∨ (t.fault.cause.code = 3 ∧ 4095 < t.fault.info.toNat)) ∧
    specStep s = (t, .fault t.fault)

/-- Rule R104: a step with RUN = 0, and only such a step, is halted: the state is unchanged, the result is Halted, nothing is put
out, and reset makes the unit run again. -/
def Obligations.HaltedUnitHasNoStep : Prop :=
  ∀ s : State, (s.run = .faulted ↔ step s = .fault .halted) ∧
    (s.run = .faulted → specStep s = (s, .halted) ∧ stepCalls s = [] ∧ (runSteps 1 s).traces = []) ∧
    s.hostReset.run = .running

/-- Rule R188: a fault is final. No batch changes a faulted unit, no move of the host but reset changes RUN or FAULT, and reset
sets RUN to 1 and clears FAULT. -/
def Obligations.FaultIsFinal : Prop :=
  (∀ (s : State) (k : Nat), s.run = .faulted → (runSteps k s).state = s ∧ (runSteps k s).traces = []) ∧
  (∀ (e e' : Session) (m : HostMove) (reply : HostReply), e.state.run = .faulted → m ≠ .reset →
    e.move m = some (e', reply) → e'.state.run = .faulted ∧ e'.state.fault = e.state.fault) ∧
  (∀ e : Session, ∃ e', e.move .reset = some (e', .resetDone) ∧ e'.state.run = .running ∧
    e'.state.fault = { cause := .none, pc := 0, info := 0 })

/-- Rule R102: a step that completes assigns pc exactly once: NNN for 1NNN, pc + 4 for a taken 3XNN, pc + 2 for everything
else. That these are sums of natural numbers that never wrap, and at most 4098, is no part of R102: it is R23's own inference,
marked derived there (log entry 11, DEDUCED). -/
def Obligations.PcPostcondition : Prop :=
  ∀ (s t : State) (w : Word) (i : Instr),
    s.run = .running → fetch s = .ok w → decodeWord w = .ok i → step s = .next t → t.run = .running →
    (match i with
      | .jp nnn => t.pc.toNat = nnn.toNat
      | .se x nn => t.pc.toNat = s.pc.toNat + if s.readV x = nn then 4 else 2
      | _ => t.pc.toNat = s.pc.toNat + 2) ∧
    t.pc.toNat ≤ 4098

/-! ## What the host sees -/

/-- Rules R101 and R103. R101: with RUN 0 the step is halted and changes nothing; a failed fetch and an illegal word write RUN and
FAULT alone and report FAULT; a decoded instruction executes, and returns Ok when it completes, or (a draw) writes RUN and FAULT
alone and reports FAULT; so every step that leaves a running unit running returns Ok. R103: a step that returns Ok emits one
record, the word executed and the 16 registers and pc after it; a step that faults or is halted emits none; the record changes no
state. -/
def Obligations.TraceRecordContents : Prop :=
  ∀ s : State,
    (s.run = .faulted → specStep s = (s, .halted)) ∧
    (∀ a, s.run = .running → fetch s = .outside a →
      specStep s = ({ s with run := .faulted, fault := ⟨.addressError, s.pc, BitVec.ofNat 16 a⟩ },
        .fault ⟨.addressError, s.pc, BitVec.ofNat 16 a⟩)) ∧
    (∀ w r, s.run = .running → fetch s = .ok w → decodeWord w = .reject r →
      specStep s = ({ s with run := .faulted, fault := ⟨.decodeError, s.pc, w⟩ }, .fault ⟨.decodeError, s.pc, w⟩)) ∧
    (∀ w i, s.run = .running → fetch s = .ok w → decodeWord w = .ok i → ∃ t, exec i s = .next t ∧
      (t.run = .running → specStep s = (t, .ok { instr := w, v := t.v, pc := t.pc })) ∧
      (t.run = .faulted → t = { s with run := .faulted, fault := ⟨.addressError, s.pc, t.fault.info⟩ } ∧
        specStep s = (t, .fault t.fault))) ∧
    (∀ t, s.run = .running → step s = .next t → t.run = .running → ∃ tr, specStep s = (t, .ok tr)) ∧
    (∀ t tr, specStep s = (t, .ok tr) → step s = .next t ∧ fetch s = .ok tr.instr ∧
      (∀ z : Reg, tr.v[z] = t.readV z) ∧ tr.pc = t.pc ∧ (runSteps 1 s).traces = [tr] ∧ (runSteps 1 s).state = t) ∧
    (∀ t f, specStep s = (t, .fault f) → (runSteps 1 s).traces = [] ∧ (runSteps 1 s).state = t) ∧
    (∀ t, specStep s = (t, .halted) → (runSteps 1 s).traces = [] ∧ t = s)

/-- Rule R105: a batch is up to IPF steps, and stops at the first that is not Ok; m + n steps are m steps and then n steps; and k
steps of the same unit with another IPF do the same and leave that IPF. State, result and trace records are compared, the
host-surface calls are not (log entry 5): see `RunMirrorsFramebuffer` for what they leave on the surface. -/
def Obligations.BatchSplitsAnywhere : Prop :=
  ∀ (m n : Nat) (s : State),
    ((runSteps m s).result = .ok →
      (runSteps (m + n) s).state = (runSteps n (runSteps m s).state).state ∧
      (runSteps (m + n) s).result = (runSteps n (runSteps m s).state).result ∧
      (runSteps (m + n) s).traces = (runSteps m s).traces ++ (runSteps n (runSteps m s).state).traces) ∧
    ((runSteps m s).result ≠ .ok →
      (runSteps (m + n) s).state = (runSteps m s).state ∧ (runSteps (m + n) s).result = (runSteps m s).result ∧
      (runSteps (m + n) s).traces = (runSteps m s).traces) ∧
    (runSteps 1 s).state = (specStep s).1 ∧
    (runSteps 1 s).result =
      (match (specStep s).2 with
      | .ok _ => .ok
      | .fault f => .fault f
      | .halted => .halted) ∧
    runBatch s = runSteps s.params.ipf s ∧
    ∀ j k : Nat,
      (runSteps k { s with params := { s.params with ipf := j } }).state
        = { (runSteps k s).state with params := { (runSteps k s).state.params with ipf := j } } ∧
      (runSteps k { s with params := { s.params with ipf := j } }).result = (runSteps k s).result ∧
      (runSteps k { s with params := { s.params with ipf := j } }).traces = (runSteps k s).traces

/-- The instructions per frame have no architectural effect: a step of a unit with another IPF does the same. -/
def Obligations.InstructionsPerFrameIsInvisible : Prop :=
  ∀ (s : State) (j : Nat),
    step { s with params := { s.params with ipf := j } } =
      match step s with
      | .next t => .next { t with params := { t.params with ipf := j } }
      | .fault r => .fault r
      | .refused r => .refused r

/-- Rule R92: a running unit at a jump to its own address stays in that state for ever, without a fault. -/
def Obligations.JumpToSelfIsFixedPoint : Prop :=
  ∀ (s : State) (nnn : BitVec 12) (k : Nat),
    s.run = .running → s.pc = nnn.setWidth 16 → fetch s = .ok (encodeWord (.jp nnn)) →
    step s = .next s ∧ (runSteps k s).state = s ∧ (runSteps k s).result = .ok ∧ runsSafely k s = true

/-- Rule R158: if the host's surface shows FB at some pixels, then after a step's calls, made in any order, it shows the new FB
at those pixels and at every pixel the step touched. The calls carry final values, every pixel the step changed has one, they
touch distinct pixels, and calls for some of the touched pixels, the changed ones among them, still keep the pixels shown. -/
def Obligations.HostSurfaceMirrorsFramebuffer : Prop :=
  ∀ (s t : State) (surface : Framebuffer) (shown : Pixel → Prop) (calls : List SetPixel),
    step s = .next t → (∀ p, shown p → surface.get p = s.fb.get p) → calls.Perm (stepCalls s) →
    (∀ p, shown p ∨ (∃ c ∈ stepCalls s, c.at_ = p) → (applyCalls surface calls).get p = t.fb.get p) ∧
    (∀ c ∈ stepCalls s, c.isSet = t.fb.get c.at_) ∧
    (∀ p, t.fb.get p ≠ s.fb.get p → ∃ c ∈ stepCalls s, c.at_ = p) ∧
    (s.params.wf = true → (stepCalls s).Pairwise (fun c d => c.at_ ≠ d.at_)) ∧
    (∀ part : List SetPixel, (∀ c ∈ part, c ∈ stepCalls s) → (∀ p, t.fb.get p ≠ s.fb.get p → ∃ c ∈ part, c.at_ = p) →
      ∀ p, shown p → (applyCalls surface part).get p = t.fb.get p)

/-- Rules R158 and R105 over a run: if the host's surface shows FB at some pixels, then after the calls of any number of steps it
shows the final FB at those pixels and at every pixel called; a pixel that FB changed has a call; and neither a split of the run
nor another IPF makes a difference to the surface. The calls are the model's own choice (log entry 5, DESIGN CHOICE), so only what
they leave on the surface is compared, never their number or order. -/
def Obligations.RunMirrorsFramebuffer : Prop :=
  ∀ (s : State) (surface : Framebuffer) (shown : Pixel → Prop), (∀ p, shown p → surface.get p = s.fb.get p) →
    (∀ k p, shown p ∨ (∃ c ∈ (runSteps k s).calls, c.at_ = p) →
      (applyCalls surface (runSteps k s).calls).get p = (runSteps k s).state.fb.get p) ∧
    (∀ k p, (runSteps k s).state.fb.get p ≠ s.fb.get p → ∃ c ∈ (runSteps k s).calls, c.at_ = p) ∧
    (∀ m n p, (applyCalls surface (runSteps (m + n) s).calls).get p =
      if (runSteps m s).result = .ok then
        (applyCalls (applyCalls surface (runSteps m s).calls) (runSteps n (runSteps m s).state).calls).get p
      else (applyCalls surface (runSteps m s).calls).get p) ∧
    (∀ j k p, (applyCalls surface (runSteps k { s with params := { s.params with ipf := j } }).calls).get p =
      (applyCalls surface (runSteps k s).calls).get p)

/-- Rules R213 and R181: a program of more than 3584 bytes is refused whole and nothing changes; any other is copied to 0x200 on,
byte by byte, and no other byte and no other state changes. -/
def Obligations.LoadCopiesProgram : Prop :=
  ∀ (bytes : List Byte) (s : State),
    (3584 < bytes.length → load bytes s = (s, .loadError bytes.length)) ∧
    (bytes.length ≤ 3584 → ∃ t, load bytes s = (t, .ok) ∧
      (∀ i b, bytes[i]? = some b → t.mem.readByte (0x200 + i) = some b) ∧
      (∀ a, a < 0x200 ∨ 0x200 + bytes.length ≤ a → t.mem.readByte a = s.mem.readByte a) ∧
      (∀ z, t.readV z = s.readV z) ∧ t.index = s.index ∧ t.pc = s.pc ∧ t.fb = s.fb ∧ t.run = s.run ∧ t.fault = s.fault ∧
      t.params = s.params)

/-- Rule R210: reset gives every register 0, I 0, pc 0x200, every byte 0, RUN 1 and FAULT (0, 0, 0), and leaves the framebuffer;
power-on gives the same with the launch framebuffer. -/
def Obligations.ResetValues : Prop :=
  (∀ s : State, (∀ z, s.hostReset.readV z = 0) ∧ s.hostReset.index = 0 ∧ s.hostReset.pc = 0x200 ∧
    (∀ a, a < 4096 → s.hostReset.mem.readByte a = some 0) ∧ s.hostReset.run = .running ∧
    s.hostReset.fault = { cause := .none, pc := 0, info := 0 } ∧ s.hostReset.fb = s.fb ∧ s.hostReset.params = s.params) ∧
  (∀ (p : Params) (f : Framebuffer) (s : State), s.params = p → s.fb = f → State.powerOn p f = s.hostReset)

/-- Rules R214, R215 and R221 as the model's session of the host's moves reads them (log entry 7, DEDUCED). R214 and the load row of
R221: a load is a move only between reset and the first batch; an accepted one ends that time (a second load without a reset is no
move), a refused one may be followed by another attempt; reset opens it again. R215 and the RunBatch row of R221 ("after boot"): no
batch is a move before an accepted load. -/
def Obligations.LoadOnlyBeforeFirstStep : Prop :=
  ∀ (e : Session) (bytes : List Byte),
    (e.phase = .booted → e.move (.load bytes) = none) ∧
    (e.phase = .awaitingLoad → e.move .runBatch = none) ∧
    (e.phase = .awaitingLoad → bytes.length ≤ 3584 →
      ∃ e', e.move (.load bytes) = some (e', .loaded .ok) ∧ e'.phase = .booted) ∧
    (e.phase = .awaitingLoad → 3584 < bytes.length →
      e.move (.load bytes) = some (e, .loaded (.loadError bytes.length))) ∧
    (∃ e', e.move .reset = some (e', .resetDone) ∧ e'.phase = .awaitingLoad)

/-! ## Control transfer and immediates -/

/-- Rule R110, 1NNN: pc becomes NNN and nothing else changes; the target is not checked, and a jump to 0xFFF makes the next fetch
fail at address 4096. -/
def Obligations.JumpSetsPc : Prop :=
  (∀ (w : Word) (nnn : BitVec 12), decodeWord w = .ok (.jp nnn) ↔ w &&& 0xF000 = 0x1000 ∧ nnn.toNat = bitsAt w 11 0) ∧
  ∀ (nnn : BitVec 12) (s : State), ∃ t, exec (.jp nnn) s = .next t ∧
    t.pc.toNat = nnn.toNat ∧ KeepsButRegs [] s t ∧ (nnn = 0xFFF → fetch t = .outside 4096)

/-- Rule R111, 3XNN: pc + 4 when V[X] = NN, pc + 2 otherwise; nothing else changes; the skipped word plays no part (the same
holds with any other memory). -/
def Obligations.SkipIfEqual : Prop :=
  (∀ (w : Word) (x : Reg) (nn : Byte), decodeWord w = .ok (.se x nn) ↔
    w &&& 0xF000 = 0x3000 ∧ x.val = bitsAt w 11 8 ∧ nn.toNat = bitsAt w 7 0) ∧
  ∀ (x : Reg) (nn : Byte) (s : State), ∃ t, exec (.se x nn) s = .next t ∧
    t.pc = s.pc + (if (s.readV x).toNat = nn.toNat then 4 else 2) ∧ KeepsButRegs [] s t ∧
    ∀ m, exec (.se x nn) (s.withMem m) = .next (t.withMem m)

/-- Rule R120, 6XNN: V[X] becomes NN, pc + 2, nothing else changes (V[0xF] only when X = 0xF). -/
def Obligations.LoadImmediate : Prop :=
  (∀ (w : Word) (x : Reg) (nn : Byte), decodeWord w = .ok (.ldi x nn) ↔
    w &&& 0xF000 = 0x6000 ∧ x.val = bitsAt w 11 8 ∧ nn.toNat = bitsAt w 7 0) ∧
  ∀ (x : Reg) (nn : Byte) (s : State), ∃ t, exec (.ldi x nn) s = .next t ∧
    t.readV x = nn ∧ t.pc = s.pc + 2 ∧ KeepsButRegs [x] s t

/-- Rule R121, 7XNN: V[X] becomes (V[X] + NN) mod 256, pc + 2, nothing else changes: no carry is recorded. -/
def Obligations.AddImmediateNoFlag : Prop :=
  (∀ (w : Word) (x : Reg) (nn : Byte), decodeWord w = .ok (.addi x nn) ↔
    w &&& 0xF000 = 0x7000 ∧ x.val = bitsAt w 11 8 ∧ nn.toNat = bitsAt w 7 0) ∧
  ∀ (x : Reg) (nn : Byte) (s : State), ∃ t, exec (.addi x nn) s = .next t ∧
    (t.readV x).toNat = ((s.readV x).toNat + nn.toNat) % 256 ∧ t.pc = s.pc + 2 ∧ KeepsButRegs [x] s t

/-! ## Arithmetic and logic -/

/-- Rule R131, 8XY0: V[X] becomes V[Y], pc + 2, nothing else changes. -/
def Obligations.MoveRegister : Prop :=
  (∀ (w : Word) (x y : Reg), decodeWord w = .ok (.mov x y) ↔
    w &&& 0xF00F = 0x8000 ∧ x.val = bitsAt w 11 8 ∧ y.val = bitsAt w 7 4) ∧
  ∀ (x y : Reg) (s : State), ∃ t, exec (.mov x y) s = .next t ∧
    t.readV x = s.readV y ∧ t.pc = s.pc + 2 ∧ KeepsButRegs [x] s t

/-- Rules R132 to R134, 8XY1, 8XY2, 8XY3: V[X] becomes the bitwise or, and, exclusive or, then V[0xF] becomes 0 (which is what
stays when X = 0xF); pc + 2; nothing else changes. -/
def Obligations.LogicClearsFlag : Prop :=
  ((∀ (w : Word) (x y : Reg), decodeWord w = .ok (.or x y) ↔
      w &&& 0xF00F = 0x8001 ∧ x.val = bitsAt w 11 8 ∧ y.val = bitsAt w 7 4) ∧
    ∀ (x y : Reg) (s : State), ∃ t, exec (.or x y) s = .next t ∧
      (x ≠ 0xF → ∀ k, (t.readV x).getLsbD k = ((s.readV x).getLsbD k || (s.readV y).getLsbD k)) ∧
      t.readV 0xF = 0 ∧ t.pc = s.pc + 2 ∧ KeepsButRegs [x, 0xF] s t) ∧
  ((∀ (w : Word) (x y : Reg), decodeWord w = .ok (.and x y) ↔
      w &&& 0xF00F = 0x8002 ∧ x.val = bitsAt w 11 8 ∧ y.val = bitsAt w 7 4) ∧
    ∀ (x y : Reg) (s : State), ∃ t, exec (.and x y) s = .next t ∧
      (x ≠ 0xF → ∀ k, (t.readV x).getLsbD k = ((s.readV x).getLsbD k && (s.readV y).getLsbD k)) ∧
      t.readV 0xF = 0 ∧ t.pc = s.pc + 2 ∧ KeepsButRegs [x, 0xF] s t) ∧
  ((∀ (w : Word) (x y : Reg), decodeWord w = .ok (.xor x y) ↔
      w &&& 0xF00F = 0x8003 ∧ x.val = bitsAt w 11 8 ∧ y.val = bitsAt w 7 4) ∧
    ∀ (x y : Reg) (s : State), ∃ t, exec (.xor x y) s = .next t ∧
      (x ≠ 0xF → ∀ k, (t.readV x).getLsbD k = ((s.readV x).getLsbD k ^^ (s.readV y).getLsbD k)) ∧
      t.readV 0xF = 0 ∧ t.pc = s.pc + 2 ∧ KeepsButRegs [x, 0xF] s t)

/-- Rule R135, 8XY4: V[X] becomes the sum modulo 256, then V[0xF] the carry (which is what stays when X = 0xF); no carry-in;
pc + 2; nothing else changes. -/
def Obligations.AddSetsCarry : Prop :=
  (∀ (w : Word) (x y : Reg), decodeWord w = .ok (.add x y) ↔
    w &&& 0xF00F = 0x8004 ∧ x.val = bitsAt w 11 8 ∧ y.val = bitsAt w 7 4) ∧
  ∀ (x y : Reg) (s : State), ∃ t, exec (.add x y) s = .next t ∧
    (x ≠ 0xF → (t.readV x).toNat = ((s.readV x).toNat + (s.readV y).toNat) % 256) ∧
    (t.readV 0xF).toNat = (if 256 ≤ (s.readV x).toNat + (s.readV y).toNat then 1 else 0) ∧
    t.pc = s.pc + 2 ∧ KeepsButRegs [x, 0xF] s t

/-- Rule R136, 8XY5: V[X] becomes (V[X] - V[Y]) mod 256, then V[0xF] becomes 1 iff V[X] >= V[Y] (which is what stays when
X = 0xF); no borrow-in; pc + 2; nothing else changes. -/
def Obligations.SubtractSetsNoBorrow : Prop :=
  (∀ (w : Word) (x y : Reg), decodeWord w = .ok (.sub x y) ↔
    w &&& 0xF00F = 0x8005 ∧ x.val = bitsAt w 11 8 ∧ y.val = bitsAt w 7 4) ∧
  ∀ (x y : Reg) (s : State), ∃ t, exec (.sub x y) s = .next t ∧
    (x ≠ 0xF → ((t.readV x).toNat : Int) = (((s.readV x).toNat : Int) - ((s.readV y).toNat : Int)) % 256) ∧
    (t.readV 0xF).toNat = (if (s.readV y).toNat ≤ (s.readV x).toNat then 1 else 0) ∧
    t.pc = s.pc + 2 ∧ KeepsButRegs [x, 0xF] s t

/-- Rule R138, 8XY7: V[X] becomes (V[Y] - V[X]) mod 256, then V[0xF] becomes 1 iff V[Y] >= V[X] (which is what stays when
X = 0xF); pc + 2; nothing else changes. -/
def Obligations.ReverseSubtractSetsNoBorrow : Prop :=
  (∀ (w : Word) (x y : Reg), decodeWord w = .ok (.subn x y) ↔
    w &&& 0xF00F = 0x8007 ∧ x.val = bitsAt w 11 8 ∧ y.val = bitsAt w 7 4) ∧
  ∀ (x y : Reg) (s : State), ∃ t, exec (.subn x y) s = .next t ∧
    (x ≠ 0xF → ((t.readV x).toNat : Int) = (((s.readV y).toNat : Int) - ((s.readV x).toNat : Int)) % 256) ∧
    (t.readV 0xF).toNat = (if (s.readV x).toNat ≤ (s.readV y).toNat then 1 else 0) ∧
    t.pc = s.pc + 2 ∧ KeepsButRegs [x, 0xF] s t

/-- Rule R137, 8XY6: V[0xF] becomes bit 0 of V[X], then V[X] becomes its half (which is what stays when X = 0xF); Y plays no
part; pc + 2; nothing else changes. -/
def Obligations.ShiftRightReportsLowBit : Prop :=
  (∀ (w : Word) (x y : Reg), decodeWord w = .ok (.shr x y) ↔
    w &&& 0xF00F = 0x8006 ∧ x.val = bitsAt w 11 8 ∧ y.val = bitsAt w 7 4) ∧
  ∀ (x : Reg) (s : State), ∃ t, (∀ y, exec (.shr x y) s = .next t) ∧
    (t.readV x).toNat = (s.readV x).toNat / 2 ∧
    (x ≠ 0xF → (t.readV 0xF).toNat = (s.readV x).toNat % 2) ∧
    t.pc = s.pc + 2 ∧ KeepsButRegs [x, 0xF] s t

/-- Rule R139, 8XYE: V[0xF] becomes bit 7 of V[X] as 0 or 1, then V[X] becomes its double modulo 256 (which is what stays when
X = 0xF); Y plays no part; pc + 2; nothing else changes. -/
def Obligations.ShiftLeftReportsHighBit : Prop :=
  (∀ (w : Word) (x y : Reg), decodeWord w = .ok (.shl x y) ↔
    w &&& 0xF00F = 0x800E ∧ x.val = bitsAt w 11 8 ∧ y.val = bitsAt w 7 4) ∧
  ∀ (x : Reg) (s : State), ∃ t, (∀ y, exec (.shl x y) s = .next t) ∧
    (t.readV x).toNat = 2 * (s.readV x).toNat % 256 ∧
    (x ≠ 0xF → (t.readV 0xF).toNat = (s.readV x).toNat / 128) ∧
    t.pc = s.pc + 2 ∧ KeepsButRegs [x, 0xF] s t

/-- Rule R130: all sources are read before any write and the later write to one register stands, so with X = 0xF the register
holds the flag after 8XY1 to 8XY5 and 8XY7 and the shifted old value after 8XY6 and 8XYE. -/
def Obligations.FlagRegisterAsDestination : Prop :=
  ∀ (y : Reg) (s : State), ∃ tOr tAnd tXor tAdd tSub tSubn tShr tShl : State,
    exec (.or 0xF y) s = .next tOr ∧ tOr.readV 0xF = 0 ∧
    exec (.and 0xF y) s = .next tAnd ∧ tAnd.readV 0xF = 0 ∧
    exec (.xor 0xF y) s = .next tXor ∧ tXor.readV 0xF = 0 ∧
    exec (.add 0xF y) s = .next tAdd ∧
      (tAdd.readV 0xF).toNat = ((s.readV 0xF).toNat + (s.readV y).toNat) / 256 ∧
    exec (.sub 0xF y) s = .next tSub ∧
      (tSub.readV 0xF).toNat = ((s.readV 0xF).toNat + 256 - (s.readV y).toNat) / 256 ∧
    exec (.subn 0xF y) s = .next tSubn ∧
      (tSubn.readV 0xF).toNat = ((s.readV y).toNat + 256 - (s.readV 0xF).toNat) / 256 ∧
    exec (.shr 0xF y) s = .next tShr ∧ (tShr.readV 0xF).toNat = (s.readV 0xF).toNat / 2 ∧
    exec (.shl 0xF y) s = .next tShl ∧ (tShl.readV 0xF).toNat = 2 * (s.readV 0xF).toNat % 256

/-- The flag table of rule R24, as a rule about every instruction that completes: which ones leave V[0xF] alone, which clear it,
and that every true flag is exactly 0 or 1. -/
def Obligations.FlagRegisterDiscipline : Prop :=
  ∀ (i : Instr) (s t : State), s.run = .running → exec i s = .next t → t.run = .running →
    match i with
    | .jp _ | .se _ _ => t.readV 0xF = s.readV 0xF
    | .ldi x _ | .addi x _ | .mov x _ => x ≠ 0xF → t.readV 0xF = s.readV 0xF
    | .or _ _ | .and _ _ | .xor _ _ => t.readV 0xF = 0
    | .add _ _ | .sub _ _ | .subn _ _ | .drw _ _ _ => t.readV 0xF = 0 ∨ t.readV 0xF = 1
    | .shr x _ | .shl x _ => x ≠ 0xF → t.readV 0xF = 0 ∨ t.readV 0xF = 1

/-- The "writes" column of rule R21, as a rule about every step: a register that changed is one the executed instruction
writes. -/
def Obligations.OnlyListedRegistersChange : Prop :=
  ∀ (s t : State) (z : Reg), step s = .next t → t.readV z ≠ s.readV z →
    ∃ w i, fetch s = .ok w ∧ decodeWord w = .ok i ∧ z ∈ writtenRegs i

/-! ## Draw -/

/-- DXYN (R150 to R157). With its sprite in memory: the 8 by N destinations, columns (V[X] + b) mod FB_W and rows (V[Y] + r) mod
FB_H (R154, R155), are distinct (R157); each becomes its old value XOR bit 7 - b of the byte at I + r (R152, R153, R156), every
other pixel stays; V[0xF] is 1 iff some set bit lands on a pixel that was set, else 0; pc + 2; nothing else changes. With a sprite
row above address 4095: AddressError with the lowest such address, and nothing else changes (R150). -/
def Obligations.DrawCompositesSprite : Prop :=
  (∀ (w : Word) (x y : Reg) (n : Nat), decodeWord w = .ok (.drw x y n) ↔
    w &&& 0xF000 = 0xD000 ∧ x.val = bitsAt w 11 8 ∧ y.val = bitsAt w 7 4 ∧ n = bitsAt w 3 0) ∧
  (∀ (x y : Reg) (n : Nat) (s : State), ¬ spriteInRange n s →
    exec (.drw x y n) s = .next { s with
      run := .faulted
      fault := { cause := .addressError, pc := s.pc, info := BitVec.ofNat 16 (max s.index.toNat 4096) } }) ∧
  ∀ (x y : Reg) (n : Nat) (s : State), n ≤ 15 → s.params.wf = true → spriteInRange n s →
    (∀ r r' b b', r < n → r' < n → b < 8 → b' < 8 → landsOn x y s r b = landsOn x y s r' b' → r = r' ∧ b = b') ∧
    ∃ t, exec (.drw x y n) s = .next t ∧
      (∀ r b, r < n → b < 8 →
        t.fb.get (landsOn x y s r b) = (s.fb.get (landsOn x y s r b) ^^ spritePixel s r b)) ∧
      (∀ p, (∀ r b, r < n → b < 8 → landsOn x y s r b ≠ p) → t.fb.get p = s.fb.get p) ∧
      (t.readV 0xF = 0 ∨ t.readV 0xF = 1) ∧
      (t.readV 0xF = 1 ↔ ∃ r b, r < n ∧ b < 8 ∧ spritePixel s r b = true ∧ s.fb.get (landsOn x y s r b) = true) ∧
      t.pc = s.pc + 2 ∧ KeepsBut [0xF] s t

/-- DXY0 (R160): whatever I holds and whatever memory holds, no pixel changes, V[0xF] becomes 0 and pc moves by 2. -/
def Obligations.DrawOfZeroRows : Prop :=
  ∀ (x y : Reg) (s : State), ∃ t, exec (.drw x y 0) s = .next t ∧
    t.readV 0xF = 0 ∧ t.pc = s.pc + 2 ∧ KeepsButRegs [0xF] s t ∧
    ∀ m, exec (.drw x y 0) (s.withMem m) = .next (t.withMem m)

/-- Rule R159: the same draw executed twice with the same I, memory, V[X] and V[Y] gives the framebuffer back; the first flag is
1 iff some set bit lands on a pixel that was set, the second iff some set bit lands on a pixel that was unset. -/
def Obligations.DrawTwiceRestoresFramebuffer : Prop :=
  ∀ (x y : Reg) (n : Nat) (s t : State), n ≤ 15 → s.params.wf = true → spriteInRange n s →
    exec (.drw x y n) s = .next t → t.readV x = s.readV x → t.readV y = s.readV y →
    ∃ u, exec (.drw x y n) t = .next u ∧
      (∀ p, u.fb.get p = s.fb.get p) ∧ (s.fb.wf s.params = true → u.fb = s.fb) ∧
      (t.readV 0xF = 1 ↔ ∃ r b, r < n ∧ b < 8 ∧ spritePixel s r b = true ∧ s.fb.get (landsOn x y s r b) = true) ∧
      (u.readV 0xF = 1 ↔ ∃ r b, r < n ∧ b < 8 ∧ spritePixel s r b = true ∧ s.fb.get (landsOn x y s r b) = false)

/-- DXYN is the only instruction that reads or writes the framebuffer (R26): any other leaves it and does the same whatever it
holds. -/
def Obligations.OnlyDrawTouchesFramebuffer : Prop :=
  ∀ (i : Instr) (s t : State) (f : Framebuffer), (∀ x y n, i ≠ .drw x y n) → exec i s = .next t →
    t.fb = s.fb ∧ exec i (s.withFb f) = .next (t.withFb f)

/-! ## Whole machine -/

/-- The invariant of the unit is kept by every step that answers a next state. -/
def Obligations.StepKeepsInvariant : Prop :=
  ∀ s t : State, s.Inv → step s = .next t → t.Inv

/-- The invariant holds after reset, and after power-on with any legal parameters and launch framebuffer. -/
def Obligations.ResetMeetsInvariant : Prop :=
  State.reset.Inv ∧ ∀ (p : Params) (f : Framebuffer), p.wf = true → f.wf p = true → (State.powerOn p f).Inv

/-- Every move the host has (reset, load, batch) keeps the invariant. -/
def Obligations.HostMovesKeepInvariant : Prop :=
  ∀ (e e' : Session) (m : HostMove) (reply : HostReply), e.state.Inv → e.move m = some (e', reply) → e'.state.Inv

/-- No instruction writes memory or I (R22, R25, R57): after any number of steps both are what they were at launch, and so are
the open parameters. -/
def Obligations.MemoryAndIndexStayConstant : Prop :=
  ∀ (k : Nat) (s : State), (runSteps k s).state.mem = s.mem ∧
    (∀ a, (runSteps k s).state.mem.readByte a = s.mem.readByte a) ∧
    (runSteps k s).state.index = s.index ∧ (runSteps k s).state.params = s.params
end

