-- ==== Sys2Proof/Laws/State.lean ====
section
/-! SUPPORT. One lemma per field and update of `State`, so that no proof unfolds a record update. -/

namespace Sys2Proof.Machine.State

variable (s : State)

@[simp] theorem writeV_v (r : Reg) (b : Byte) : (s.writeV r b).v = s.v.set r b := rfl
@[simp] theorem writeV_index (r : Reg) (b : Byte) : (s.writeV r b).index = s.index := rfl
@[simp] theorem writeV_pc (r : Reg) (b : Byte) : (s.writeV r b).pc = s.pc := rfl
@[simp] theorem writeV_mem (r : Reg) (b : Byte) : (s.writeV r b).mem = s.mem := rfl
@[simp] theorem writeV_fb (r : Reg) (b : Byte) : (s.writeV r b).fb = s.fb := rfl
@[simp] theorem writeV_run (r : Reg) (b : Byte) : (s.writeV r b).run = s.run := rfl
@[simp] theorem writeV_fault (r : Reg) (b : Byte) : (s.writeV r b).fault = s.fault := rfl
@[simp] theorem writeV_params (r : Reg) (b : Byte) : (s.writeV r b).params = s.params := rfl

@[simp] theorem advancePc_v (k : Nat) : (s.advancePc k).v = s.v := rfl
@[simp] theorem advancePc_index (k : Nat) : (s.advancePc k).index = s.index := rfl
@[simp] theorem advancePc_pc (k : Nat) : (s.advancePc k).pc = s.pc + BitVec.ofNat 16 k := rfl
@[simp] theorem advancePc_mem (k : Nat) : (s.advancePc k).mem = s.mem := rfl
@[simp] theorem advancePc_fb (k : Nat) : (s.advancePc k).fb = s.fb := rfl
@[simp] theorem advancePc_run (k : Nat) : (s.advancePc k).run = s.run := rfl
@[simp] theorem advancePc_fault (k : Nat) : (s.advancePc k).fault = s.fault := rfl
@[simp] theorem advancePc_params (k : Nat) : (s.advancePc k).params = s.params := rfl
@[simp] theorem advancePc_readV (k : Nat) (z : Reg) : (s.advancePc k).readV z = s.readV z := rfl

@[simp] theorem jumpTo_v (a : Word) : (s.jumpTo a).v = s.v := rfl
@[simp] theorem jumpTo_index (a : Word) : (s.jumpTo a).index = s.index := rfl
@[simp] theorem jumpTo_pc (a : Word) : (s.jumpTo a).pc = a := rfl
@[simp] theorem jumpTo_mem (a : Word) : (s.jumpTo a).mem = s.mem := rfl
@[simp] theorem jumpTo_fb (a : Word) : (s.jumpTo a).fb = s.fb := rfl
@[simp] theorem jumpTo_run (a : Word) : (s.jumpTo a).run = s.run := rfl
@[simp] theorem jumpTo_fault (a : Word) : (s.jumpTo a).fault = s.fault := rfl
@[simp] theorem jumpTo_params (a : Word) : (s.jumpTo a).params = s.params := rfl
@[simp] theorem jumpTo_readV (a : Word) (z : Reg) : (s.jumpTo a).readV z = s.readV z := rfl

@[simp] theorem withMem_v (m : Memory) : (s.withMem m).v = s.v := rfl
@[simp] theorem withMem_index (m : Memory) : (s.withMem m).index = s.index := rfl
@[simp] theorem withMem_pc (m : Memory) : (s.withMem m).pc = s.pc := rfl
@[simp] theorem withMem_mem (m : Memory) : (s.withMem m).mem = m := rfl
@[simp] theorem withMem_fb (m : Memory) : (s.withMem m).fb = s.fb := rfl
@[simp] theorem withMem_run (m : Memory) : (s.withMem m).run = s.run := rfl
@[simp] theorem withMem_fault (m : Memory) : (s.withMem m).fault = s.fault := rfl
@[simp] theorem withMem_params (m : Memory) : (s.withMem m).params = s.params := rfl
@[simp] theorem withMem_readV (m : Memory) (z : Reg) : (s.withMem m).readV z = s.readV z := rfl

@[simp] theorem withFb_v (f : Framebuffer) : (s.withFb f).v = s.v := rfl
@[simp] theorem withFb_index (f : Framebuffer) : (s.withFb f).index = s.index := rfl
@[simp] theorem withFb_pc (f : Framebuffer) : (s.withFb f).pc = s.pc := rfl
@[simp] theorem withFb_mem (f : Framebuffer) : (s.withFb f).mem = s.mem := rfl
@[simp] theorem withFb_fb (f : Framebuffer) : (s.withFb f).fb = f := rfl
@[simp] theorem withFb_run (f : Framebuffer) : (s.withFb f).run = s.run := rfl
@[simp] theorem withFb_fault (f : Framebuffer) : (s.withFb f).fault = s.fault := rfl
@[simp] theorem withFb_params (f : Framebuffer) : (s.withFb f).params = s.params := rfl
@[simp] theorem withFb_readV (f : Framebuffer) (z : Reg) : (s.withFb f).readV z = s.readV z := rfl

@[simp] theorem takeFault_v (c : FaultCause) (i : Word) : (s.takeFault c i).v = s.v := rfl
@[simp] theorem takeFault_index (c : FaultCause) (i : Word) : (s.takeFault c i).index = s.index := rfl
@[simp] theorem takeFault_pc (c : FaultCause) (i : Word) : (s.takeFault c i).pc = s.pc := rfl
@[simp] theorem takeFault_mem (c : FaultCause) (i : Word) : (s.takeFault c i).mem = s.mem := rfl
@[simp] theorem takeFault_fb (c : FaultCause) (i : Word) : (s.takeFault c i).fb = s.fb := rfl
@[simp] theorem takeFault_run (c : FaultCause) (i : Word) : (s.takeFault c i).run = .faulted := rfl
@[simp] theorem takeFault_fault (c : FaultCause) (i : Word) : (s.takeFault c i).fault = { cause := c, pc := s.pc, info := i } := rfl
@[simp] theorem takeFault_params (c : FaultCause) (i : Word) : (s.takeFault c i).params = s.params := rfl
@[simp] theorem takeFault_readV (c : FaultCause) (i : Word) (z : Reg) : (s.takeFault c i).readV z = s.readV z := rfl

@[simp] theorem takeAddressError_v (a : Nat) : (s.takeAddressError a).v = s.v := rfl
@[simp] theorem takeAddressError_index (a : Nat) : (s.takeAddressError a).index = s.index := rfl
@[simp] theorem takeAddressError_pc (a : Nat) : (s.takeAddressError a).pc = s.pc := rfl
@[simp] theorem takeAddressError_mem (a : Nat) : (s.takeAddressError a).mem = s.mem := rfl
@[simp] theorem takeAddressError_fb (a : Nat) : (s.takeAddressError a).fb = s.fb := rfl
@[simp] theorem takeAddressError_run (a : Nat) : (s.takeAddressError a).run = .faulted := rfl
@[simp] theorem takeAddressError_fault (a : Nat) : (s.takeAddressError a).fault = { cause := .addressError, pc := s.pc, info := BitVec.ofNat 16 a } := rfl
@[simp] theorem takeAddressError_params (a : Nat) : (s.takeAddressError a).params = s.params := rfl
@[simp] theorem takeAddressError_readV (a : Nat) (z : Reg) : (s.takeAddressError a).readV z = s.readV z := rfl

@[simp] theorem takeDecodeError_v (w : Word) : (s.takeDecodeError w).v = s.v := rfl
@[simp] theorem takeDecodeError_index (w : Word) : (s.takeDecodeError w).index = s.index := rfl
@[simp] theorem takeDecodeError_pc (w : Word) : (s.takeDecodeError w).pc = s.pc := rfl
@[simp] theorem takeDecodeError_mem (w : Word) : (s.takeDecodeError w).mem = s.mem := rfl
@[simp] theorem takeDecodeError_fb (w : Word) : (s.takeDecodeError w).fb = s.fb := rfl
@[simp] theorem takeDecodeError_run (w : Word) : (s.takeDecodeError w).run = .faulted := rfl
@[simp] theorem takeDecodeError_fault (w : Word) : (s.takeDecodeError w).fault = { cause := .decodeError, pc := s.pc, info := w } := rfl
@[simp] theorem takeDecodeError_params (w : Word) : (s.takeDecodeError w).params = s.params := rfl
@[simp] theorem takeDecodeError_readV (w : Word) (z : Reg) : (s.takeDecodeError w).readV z = s.readV z := rfl

@[simp] theorem hostReset_v : (s.hostReset).v = Vector.replicate 16 0 := rfl
@[simp] theorem hostReset_index : (s.hostReset).index = 0 := rfl
@[simp] theorem hostReset_pc : (s.hostReset).pc = BitVec.ofNat 16 Config.loadAddr := rfl
@[simp] theorem hostReset_mem : (s.hostReset).mem = [] := rfl
@[simp] theorem hostReset_fb : (s.hostReset).fb = s.fb := rfl
@[simp] theorem hostReset_run : (s.hostReset).run = .running := rfl
@[simp] theorem hostReset_fault : (s.hostReset).fault = FaultRecord.clear := rfl
@[simp] theorem hostReset_params : (s.hostReset).params = s.params := rfl

/-- Reading a register after a write: the written value at its index, the old value at any other (R20). -/
theorem writeV_readV (r : Reg) (b : Byte) (z : Reg) : (s.writeV r b).readV z = if z = r then b else s.readV z := by
  simp only [readV, writeV, Fin.getElem_fin, Vector.getElem_set]
  by_cases h : z = r
  · simp [h]
  · simp [h, show ¬ (r : Nat) = z from fun e => h (Fin.ext e.symm)]

@[simp] theorem writeV_readV_same (r : Reg) (b : Byte) : (s.writeV r b).readV r = b := by
  simp [writeV_readV]

theorem writeV_readV_other {r z : Reg} (b : Byte) (h : z ≠ r) : (s.writeV r b).readV z = s.readV z := by
  simp [writeV_readV, h]

@[simp] theorem hostReset_readV (z : Reg) : s.hostReset.readV z = 0 := by
  simp [readV]

@[simp] theorem powerOn_readV (p : Params) (f : Framebuffer) (z : Reg) : (powerOn p f).readV z = 0 := by
  simp [readV, powerOn]

end Sys2Proof.Machine.State
end

