-- ==== Sys2Proof/Laws/Alu.lean ====
section
/-! SUPPORT. The arithmetic of rule R140 as natural numbers, and what the two write orders of rule R130 leave in the registers. -/

namespace Sys2Proof.Machine

theorem flagByte_toNat (b : Bool) : (flagByte b).toNat = if b then 1 else 0 := by
  cases b <;> rfl

theorem addWide_toNat (a b : Byte) : (addWide a b).toNat = a.toNat + b.toNat := by
  simp [addWide]; omega

theorem subWide_toNat (a b : Byte) : (subWide a b).toNat = a.toNat + 256 - b.toNat := by
  simp [subWide]; omega

theorem ninthBit_toNat (t : BitVec 9) : (ninthBit t).toNat = if 256 ≤ t.toNat then 1 else 0 := by
  rw [ninthBit, flagByte_toNat]
  have h : t.getLsbD 8 = decide (256 ≤ t.toNat) := by
    have := t.isLt
    rw [BitVec.getLsbD, Nat.testBit_eq_decide_div_mod_eq]
    congr 1
    simp only [eq_iff_iff]
    omega
  rw [h]
  simp

/-- Addition (R135, R140): the sum modulo 256 and the carry. -/
theorem add_result (a b : Byte) : (lowByte (addWide a b)).toNat = (a.toNat + b.toNat) % 256 := by
  simp [lowByte, addWide_toNat]

theorem add_carry (a b : Byte) : (ninthBit (addWide a b)).toNat = if 256 ≤ a.toNat + b.toNat then 1 else 0 := by
  rw [ninthBit_toNat, addWide_toNat]

/-- Subtraction (R136, R138, R140): the difference modulo 256 and the no-borrow bit. -/
theorem sub_result (a b : Byte) : (lowByte (subWide a b)).toNat = (a.toNat + 256 - b.toNat) % 256 := by
  simp [lowByte, subWide_toNat]

theorem sub_noBorrow (a b : Byte) : (ninthBit (subWide a b)).toNat = if b.toNat ≤ a.toNat then 1 else 0 := by
  rw [ninthBit_toNat, subWide_toNat]
  by_cases h : b.toNat ≤ a.toNat
  · simp [h]; omega
  · simp [h]; omega

theorem shr_result (a : Byte) : (a >>> 1).toNat = a.toNat / 2 := by
  simp [Nat.shiftRight_eq_div_pow]

theorem shr_flag (a : Byte) : (shiftedOutLow a).toNat = a.toNat % 2 := by
  rw [shiftedOutLow, flagByte_toNat, BitVec.getLsbD, Nat.testBit_eq_decide_div_mod_eq]
  simp only [pow_zero, Nat.div_one, decide_eq_true_eq]
  split <;> omega

theorem shl_result (a : Byte) : (a <<< 1).toNat = 2 * a.toNat % 256 := by
  simp [Nat.shiftLeft_eq, Nat.mul_comm]

theorem shl_flag (a : Byte) : (shiftedOutHigh a).toNat = a.toNat / 128 := by
  have := a.isLt
  rw [shiftedOutHigh, flagByte_toNat, BitVec.getLsbD, Nat.testBit_eq_decide_div_mod_eq]
  simp only [decide_eq_true_eq]
  split <;> omega

namespace State

variable (s : State) (x : Reg) (result flag : Byte)

@[simp] theorem resultThenFlag_pc : (s.resultThenFlag x result flag).pc = s.pc + 2 := rfl
@[simp] theorem resultThenFlag_index : (s.resultThenFlag x result flag).index = s.index := rfl
@[simp] theorem resultThenFlag_mem : (s.resultThenFlag x result flag).mem = s.mem := rfl
@[simp] theorem resultThenFlag_fb : (s.resultThenFlag x result flag).fb = s.fb := rfl
@[simp] theorem resultThenFlag_run : (s.resultThenFlag x result flag).run = s.run := rfl
@[simp] theorem resultThenFlag_fault : (s.resultThenFlag x result flag).fault = s.fault := rfl
@[simp] theorem resultThenFlag_params : (s.resultThenFlag x result flag).params = s.params := rfl

/-- Result first, flag last: when X = 0xF the flag stands (R130). -/
theorem resultThenFlag_readV (z : Reg) :
    (s.resultThenFlag x result flag).readV z = if z = flagReg then flag else if z = x then result else s.readV z := by
  simp [resultThenFlag, writeV_readV]

@[simp] theorem flagThenResult_pc : (s.flagThenResult x result flag).pc = s.pc + 2 := rfl
@[simp] theorem flagThenResult_index : (s.flagThenResult x result flag).index = s.index := rfl
@[simp] theorem flagThenResult_mem : (s.flagThenResult x result flag).mem = s.mem := rfl
@[simp] theorem flagThenResult_fb : (s.flagThenResult x result flag).fb = s.fb := rfl
@[simp] theorem flagThenResult_run : (s.flagThenResult x result flag).run = s.run := rfl
@[simp] theorem flagThenResult_fault : (s.flagThenResult x result flag).fault = s.fault := rfl
@[simp] theorem flagThenResult_params : (s.flagThenResult x result flag).params = s.params := rfl

/-- Flag first, result last: when X = 0xF the result stands (R130). -/
theorem flagThenResult_readV (z : Reg) :
    (s.flagThenResult x result flag).readV z = if z = x then result else if z = flagReg then flag else s.readV z := by
  simp [flagThenResult, writeV_readV]

end State

end Sys2Proof.Machine
end

