-- ==== Sys2Proof/Laws/Decode.lean ====
section
/-! SUPPORT. The fields of rule R82 and the formats of rule R81 as numbers, so that a statement about an encoding is arithmetic;
the masks of rule R82; the opcode map's rows (R86). -/

namespace Sys2Proof

/-! ## Fields as numbers (R82) -/

theorem family_toNat (w : Word) : (family w).toNat = w.toNat / 4096 := by
  have := w.isLt
  simp [family, BitVec.extractLsb'_toNat, Nat.shiftRight_eq_div_pow]; omega

theorem fieldX_val (w : Word) : (fieldX w).val = w.toNat / 256 % 16 := by
  show (w.extractLsb' 8 4).toNat = _
  simp [BitVec.extractLsb'_toNat, Nat.shiftRight_eq_div_pow]

theorem fieldY_val (w : Word) : (fieldY w).val = w.toNat / 16 % 16 := by
  show (w.extractLsb' 4 4).toNat = _
  simp [BitVec.extractLsb'_toNat, Nat.shiftRight_eq_div_pow]

theorem fieldNN_toNat (w : Word) : (fieldNN w).toNat = w.toNat % 256 := by
  simp [fieldNN, BitVec.extractLsb'_toNat]

theorem fieldNNN_toNat (w : Word) : (fieldNNN w).toNat = w.toNat % 4096 := by
  simp [fieldNNN, BitVec.extractLsb'_toNat]

theorem fieldN_toNat (w : Word) : (fieldN w).toNat = w.toNat % 16 := by
  simp [fieldN, BitVec.extractLsb'_toNat]

/-! ## Formats as numbers (R81) -/

theorem toNat_append_add {m k : Nat} (a : BitVec m) (b : BitVec k) : (a ++ b).toNat = a.toNat * 2 ^ k + b.toNat := by
  rw [BitVec.toNat_append, ← Nat.shiftLeft_add_eq_or_of_lt b.isLt, Nat.shiftLeft_eq]

theorem formatNNN_toNat (fam : BitVec 4) (nnn : BitVec 12) :
    (formatNNN fam nnn).toNat = fam.toNat * 4096 + nnn.toNat :=
  toNat_append_add fam nnn

theorem formatXNN_toNat (fam : BitVec 4) (x : Reg) (nn : Byte) :
    (formatXNN fam x nn).toNat = fam.toNat * 4096 + x.val * 256 + nn.toNat := by
  show ((fam ++ (BitVec.ofFin x : BitVec 4)) ++ nn).toNat = _
  rw [toNat_append_add, toNat_append_add]
  simp; omega

theorem formatXYN_toNat (fam : BitVec 4) (x y : Reg) (n : BitVec 4) :
    (formatXYN fam x y n).toNat = fam.toNat * 4096 + x.val * 256 + y.val * 16 + n.toNat := by
  show (((fam ++ (BitVec.ofFin x : BitVec 4)) ++ (BitVec.ofFin y : BitVec 4)) ++ n).toNat = _
  rw [toNat_append_add, toNat_append_add, toNat_append_add]
  simp; omega

section
variable (fam n : BitVec 4) (x y : Reg) (nn : Byte) (nnn : BitVec 12)

@[simp] theorem family_formatNNN : family (formatNNN fam nnn) = fam := by
  apply BitVec.eq_of_toNat_eq; rw [family_toNat, formatNNN_toNat]; have := nnn.isLt; omega

@[simp] theorem fieldNNN_formatNNN : fieldNNN (formatNNN fam nnn) = nnn := by
  apply BitVec.eq_of_toNat_eq; rw [fieldNNN_toNat, formatNNN_toNat]; have := nnn.isLt; omega

@[simp] theorem family_formatXNN : family (formatXNN fam x nn) = fam := by
  apply BitVec.eq_of_toNat_eq; rw [family_toNat, formatXNN_toNat]; have := nn.isLt; omega

@[simp] theorem fieldX_formatXNN : fieldX (formatXNN fam x nn) = x := by
  apply Fin.ext; rw [fieldX_val, formatXNN_toNat]; have := nn.isLt; omega

@[simp] theorem fieldNN_formatXNN : fieldNN (formatXNN fam x nn) = nn := by
  apply BitVec.eq_of_toNat_eq; rw [fieldNN_toNat, formatXNN_toNat]; have := nn.isLt; omega

@[simp] theorem family_formatXYN : family (formatXYN fam x y n) = fam := by
  apply BitVec.eq_of_toNat_eq; rw [family_toNat, formatXYN_toNat]; have := n.isLt; omega

@[simp] theorem fieldX_formatXYN : fieldX (formatXYN fam x y n) = x := by
  apply Fin.ext; rw [fieldX_val, formatXYN_toNat]; have := n.isLt; omega

@[simp] theorem fieldY_formatXYN : fieldY (formatXYN fam x y n) = y := by
  apply Fin.ext; rw [fieldY_val, formatXYN_toNat]; have := n.isLt; omega

@[simp] theorem fieldN_formatXYN : fieldN (formatXYN fam x y n) = n := by
  apply BitVec.eq_of_toNat_eq; rw [fieldN_toNat, formatXYN_toNat]; have := n.isLt; omega

end

/-! ## A word from its fields -/

theorem formatNNN_fields (w : Word) : formatNNN (family w) (fieldNNN w) = w := by
  apply BitVec.eq_of_toNat_eq; rw [formatNNN_toNat, family_toNat, fieldNNN_toNat]; omega

theorem formatXNN_fields (w : Word) : formatXNN (family w) (fieldX w) (fieldNN w) = w := by
  apply BitVec.eq_of_toNat_eq; rw [formatXNN_toNat, family_toNat, fieldX_val, fieldNN_toNat]; omega

theorem formatXYN_fields (w : Word) : formatXYN (family w) (fieldX w) (fieldY w) (fieldN w) = w := by
  apply BitVec.eq_of_toNat_eq; rw [formatXYN_toNat, family_toNat, fieldX_val, fieldY_val, fieldN_toNat]; omega

/-! ## Bytes of a word (R50) -/

theorem wordOfBytes_toNat (hi lo : Byte) : (wordOfBytes hi lo).toNat = hi.toNat * 256 + lo.toNat :=
  toNat_append_add hi lo

@[simp] theorem wordOfBytes_bytesOfWord (w : Word) : wordOfBytes (w.extractLsb' 8 8) (w.extractLsb' 0 8) = w := by
  apply BitVec.eq_of_toNat_eq
  have := w.isLt
  rw [wordOfBytes_toNat]
  simp only [BitVec.extractLsb'_toNat, Nat.shiftRight_eq_div_pow]; omega

@[simp] theorem decodeBytes_bytesOfWord (w : Word) (rest : List Byte) :
    decodeBytes (bytesOfWord w ++ rest) =
      match decodeWord w with
      | .ok i => .ok (i, rest)
      | .reject r => .reject r := by
  cases h : decodeWord w <;> simp [bytesOfWord, decodeBytes, h]

/-! ## The rows of the opcode map (R86) -/

/-- No word belongs to two rows: two rows that share a word would agree on the bits both fix. -/
theorem opcodeRows_disjoint :
    opcodeRows.Pairwise (fun a b => (a.value &&& (a.mask &&& b.mask)) ≠ (b.value &&& (a.mask &&& b.mask))) := by
  decide

/-- The rows, in order, carry the 14 mnemonics. -/
theorem opcodeRows_mnemonics : opcodeRows.map (·.mnemonic) =
    ["JP", "SE", "LDI", "ADDI", "MOV", "OR", "AND", "XOR", "ADD", "SUB", "SHR", "SUBN", "SHL", "DRW"] := by
  decide

/-- The mask 0xF000 leaves the family. -/
theorem mask_family (w : Word) : (w &&& 0xF000) = BitVec.ofNat 16 ((family w).toNat * 4096) := by
  have h : ((w >>> 12) <<< 12) = w &&& 0xF000 := by
    ext i hi
    interval_cases i <;> simp
  apply BitVec.eq_of_toNat_eq
  rw [← h, family_toNat]
  simp [Nat.shiftRight_eq_div_pow, Nat.shiftLeft_eq]

/-- The mask 0xF00F leaves the family and the low nibble. -/
theorem mask_family_low (w : Word) :
    (w &&& 0xF00F) = BitVec.ofNat 16 ((family w).toNat * 4096 + (fieldN w).toNat) := by
  have h : ((w >>> 12) <<< 12) ||| ((w <<< 12) >>> 12) = w &&& 0xF00F := by
    ext i hi
    interval_cases i <;> simp
  have hlow : ((w <<< 12) >>> 12).toNat = w.toNat % 16 := by
    have := w.isLt
    simp [Nat.shiftRight_eq_div_pow, Nat.shiftLeft_eq]; omega
  have hhigh : ((w >>> 12) <<< 12).toNat = w.toNat / 4096 * 4096 := by
    have := w.isLt
    simp [Nat.shiftRight_eq_div_pow, Nat.shiftLeft_eq]; omega
  apply BitVec.eq_of_toNat_eq
  have := w.isLt
  rw [← h, BitVec.toNat_or, hlow, hhigh, family_toNat, fieldN_toNat,
    show w.toNat / 4096 * 4096 = (w.toNat / 4096 * 256) <<< 4 by rw [Nat.shiftLeft_eq]; omega,
    ← Nat.shiftLeft_add_eq_or_of_lt (by omega : w.toNat % 16 < 2 ^ 4), Nat.shiftLeft_eq, BitVec.toNat_ofNat]
  omega

theorem family_lt (w : Word) : (family w).toNat < 16 := (family w).isLt

/-- A row of mask 0xF000 selects a family. -/
theorem mask_family_iff (w : Word) (k : Nat) (hk : k < 16) :
    w &&& 0xF000 = BitVec.ofNat 16 (k * 4096) ↔ (family w).toNat = k := by
  have := family_lt w
  rw [mask_family, ← BitVec.toNat_inj, BitVec.toNat_ofNat, BitVec.toNat_ofNat]
  omega

/-- A row of mask 0xF00F selects a family and a low nibble. -/
theorem mask_family_low_iff (w : Word) (k n : Nat) (hk : k < 16) (hn : n < 16) :
    w &&& 0xF00F = BitVec.ofNat 16 (k * 4096 + n) ↔ (family w).toNat = k ∧ (fieldN w).toNat = n := by
  have := family_lt w
  have := (fieldN w).isLt
  rw [mask_family_low, ← BitVec.toNat_inj, BitVec.toNat_ofNat, BitVec.toNat_ofNat]
  omega

/-! ## What the decoder answers -/

/-- Every case of rule R90, with the family (and for family 0x8 the low nibble) that selects it. -/
theorem decodeWord_cases (w : Word) :
    ((family w).toNat = 1 ∧ decodeWord w = .ok (.jp (fieldNNN w))) ∨
    ((family w).toNat = 3 ∧ decodeWord w = .ok (.se (fieldX w) (fieldNN w))) ∨
    ((family w).toNat = 6 ∧ decodeWord w = .ok (.ldi (fieldX w) (fieldNN w))) ∨
    ((family w).toNat = 7 ∧ decodeWord w = .ok (.addi (fieldX w) (fieldNN w))) ∨
    ((family w).toNat = 8 ∧ decodeWord w = decodeAlu w) ∨
    ((family w).toNat = 0xD ∧ decodeWord w = .ok (.drw (fieldX w) (fieldY w) (fieldN w).toNat)) ∨
    ((family w).toNat ∉ [1, 3, 6, 7, 8, 0xD] ∧ decodeWord w = .reject (.unlistedFamily w)) := by
  unfold decodeWord
  split <;> simp_all

/-- Every case of the second level. -/
theorem decodeAlu_cases (w : Word) :
    ((fieldN w).toNat = 0 ∧ decodeAlu w = .ok (.mov (fieldX w) (fieldY w))) ∨
    ((fieldN w).toNat = 1 ∧ decodeAlu w = .ok (.or (fieldX w) (fieldY w))) ∨
    ((fieldN w).toNat = 2 ∧ decodeAlu w = .ok (.and (fieldX w) (fieldY w))) ∨
    ((fieldN w).toNat = 3 ∧ decodeAlu w = .ok (.xor (fieldX w) (fieldY w))) ∨
    ((fieldN w).toNat = 4 ∧ decodeAlu w = .ok (.add (fieldX w) (fieldY w))) ∨
    ((fieldN w).toNat = 5 ∧ decodeAlu w = .ok (.sub (fieldX w) (fieldY w))) ∨
    ((fieldN w).toNat = 6 ∧ decodeAlu w = .ok (.shr (fieldX w) (fieldY w))) ∨
    ((fieldN w).toNat = 7 ∧ decodeAlu w = .ok (.subn (fieldX w) (fieldY w))) ∨
    ((fieldN w).toNat = 0xE ∧ decodeAlu w = .ok (.shl (fieldX w) (fieldY w))) ∨
    ((fieldN w).toNat ∉ [0, 1, 2, 3, 4, 5, 6, 7, 0xE] ∧ decodeAlu w = .reject (.unlistedSubOperation w)) := by
  unfold decodeAlu
  split <;> simp_all

end Sys2Proof
end

