-- ==== Sys2Proof/Laws/Framebuffer.lean ====
section
/-! SUPPORT. The framebuffer: what a pixel reads as after a write, the canonical form, and that equal pixels are equal data. -/

namespace Sys2Proof.Machine.Framebuffer

theorem mem_insertPixel (p q : Pixel) (fb : Framebuffer) : q ∈ insertPixel p fb ↔ q = p ∨ q ∈ fb := by
  induction fb with
  | nil => simp [insertPixel]
  | cons e fb ih =>
    unfold insertPixel
    split
    · rename_i h; subst h; simp
    · split
      · simp
      · simp [ih]; tauto

/-- Reading a pixel after a write: the written value at its place, every other pixel as before. -/
theorem get_set (fb : Framebuffer) (p : Pixel) (b : Bool) (q : Pixel) :
    (fb.set p b).get q = if q = p then b else fb.get q := by
  cases b <;> by_cases h : q = p <;> simp [set, get, mem_insertPixel, h]

theorem scanBefore_trans {a b c : Pixel} (h : scanBefore a b) (k : scanBefore b c) : scanBefore a c := by
  unfold scanBefore at *; omega

theorem scanBefore_total {a b : Pixel} (h : a ≠ b) : scanBefore a b ∨ scanBefore b a := by
  have : ¬ (a.1 = b.1 ∧ a.2 = b.2) := fun e => h (Prod.ext e.1 e.2)
  unfold scanBefore; omega

theorem scanBefore_irrefl (a : Pixel) : ¬ scanBefore a a := by
  unfold scanBefore; omega

theorem pairwise_insertPixel (p : Pixel) (fb : Framebuffer) (h : fb.Pairwise scanBefore) :
    (insertPixel p fb).Pairwise scanBefore := by
  induction fb with
  | nil => simp [insertPixel]
  | cons e fb ih =>
    have he := List.pairwise_cons.mp h
    unfold insertPixel
    split
    · exact h
    · rename_i hne
      split
      · rename_i hlt
        refine List.pairwise_cons.mpr ⟨fun d hd => ?_, h⟩
        rcases List.mem_cons.mp hd with rfl | hd
        · exact hlt
        · exact scanBefore_trans hlt (he.1 d hd)
      · rename_i hlt
        refine List.pairwise_cons.mpr ⟨fun d hd => ?_, ih he.2⟩
        rcases (mem_insertPixel p d fb).mp hd with rfl | hd
        · exact (scanBefore_total hne).resolve_left hlt
        · exact he.1 d hd

theorem wf_iff (fb : Framebuffer) (p : Params) : fb.wf p = true ↔
    fb.Pairwise scanBefore ∧ ∀ q ∈ fb, q.1 < p.fbW ∧ q.2 < p.fbH := by
  simp [wf]

/-- A write inside the grid keeps the canonical form. -/
theorem wf_set {fb : Framebuffer} {p : Params} {q : Pixel} (b : Bool) (hx : q.1 < p.fbW) (hy : q.2 < p.fbH)
    (h : fb.wf p = true) : (fb.set q b).wf p = true := by
  rw [wf_iff] at h ⊢
  cases b with
  | true =>
    refine ⟨pairwise_insertPixel q fb h.1, fun d hd => ?_⟩
    rcases (mem_insertPixel q d fb).mp hd with rfl | hd
    · exact ⟨hx, hy⟩
    · exact h.2 d hd
  | false => exact ⟨h.1.filter _, fun d hd => h.2 d (List.mem_of_mem_filter hd)⟩

/-- Two canonical framebuffers with the same pixels are the same data. -/
theorem ext_of_get {f g : Framebuffer} (hf : f.Pairwise scanBefore) (hg : g.Pairwise scanBefore)
    (h : ∀ q, f.get q = g.get q) : f = g := by
  have hmem : ∀ q, q ∈ f ↔ q ∈ g := fun q => by simpa [get] using h q
  induction f generalizing g with
  | nil =>
    cases g with
    | nil => rfl
    | cons b g => exact absurd ((hmem b).mpr (List.mem_cons_self ..)) (by simp)
  | cons a f ih =>
    cases g with
    | nil => exact absurd ((hmem a).mp (List.mem_cons_self ..)) (by simp)
    | cons b g =>
      have hf' := List.pairwise_cons.mp hf
      have hg' := List.pairwise_cons.mp hg
      have hab : a = b := by
        rcases List.mem_cons.mp ((hmem a).mp (List.mem_cons_self ..)) with e | ha
        · exact e
        · rcases List.mem_cons.mp ((hmem b).mpr (List.mem_cons_self ..)) with e | hb
          · exact e.symm
          · exact absurd (scanBefore_trans (hg'.1 a ha) (hf'.1 b hb)) (scanBefore_irrefl b)
      subst hab
      have hm : ∀ q, q ∈ f ↔ q ∈ g := by
        intro q
        have hq := hmem q
        simp only [List.mem_cons] at hq
        constructor
        · intro hqf
          rcases hq.mp (.inr hqf) with rfl | hqg
          · exact absurd (hf'.1 q hqf) (scanBefore_irrefl q)
          · exact hqg
        · intro hqg
          rcases hq.mpr (.inr hqg) with rfl | hqf
          · exact absurd (hg'.1 q hqg) (scanBefore_irrefl q)
          · exact hqf
      rw [ih hf'.2 hg'.2 (fun q => by simp [get, hm q]) hm]

end Sys2Proof.Machine.Framebuffer
end

