-- ==== Sys2Proof/Laws/Memory.lean ====
section
/-! SUPPORT. Memory: what a byte reads as after a write, and that every memory operation keeps the canonical form. -/

namespace Sys2Proof.Machine.Memory

@[simp] theorem peek_nil (a : Nat) : peek [] a = 0 := rfl

theorem peek_cons (c : Host.Cell) (m : Memory) (a : Nat) : peek (c :: m) a = if c.1 = a then c.2 else peek m a := rfl

/-- An address that no cell lists reads as 0x00. -/
theorem peek_unlisted {m : Memory} {a : Nat} (h : ∀ c ∈ m, c.1 ≠ a) : m.peek a = 0 := by
  induction m with
  | nil => rfl
  | cons c m ih =>
    rw [peek_cons, if_neg (h c (List.mem_cons_self ..))]
    exact ih fun d hd => h d (List.mem_cons_of_mem _ hd)

/-- Dropping the cells of one address leaves every other address as it was. -/
theorem peek_filter_other (m : Memory) {a b : Nat} (h : b ≠ a) :
    peek (m.filter (fun c => c.1 != a)) b = m.peek b := by
  induction m with
  | nil => rfl
  | cons c m ih =>
    by_cases hc : c.1 = a
    · have hb : ¬ c.1 = b := fun e => h (e.symm.trans hc)
      simp [hc, peek_cons, ih, Ne.symm h]
    · simp [hc, peek_cons, ih]

theorem peek_insertCell (c : Host.Cell) (m : Memory) (hm : ∀ d ∈ m, d.1 ≠ c.1) (a : Nat) :
    (insertCell c m).peek a = if c.1 = a then c.2 else m.peek a := by
  induction m with
  | nil => simp [insertCell, peek_cons]
  | cons d m ih =>
    have hd := hm d (List.mem_cons_self ..)
    have ih := ih fun e he => hm e (List.mem_cons_of_mem _ he)
    unfold insertCell
    split
    · simp [peek_cons]
    · rw [peek_cons, ih, peek_cons]
      by_cases h1 : d.1 = a
      · simp [h1, show ¬ c.1 = a from fun e => hd (h1.trans e.symm)]
      · simp [h1]

/-- Reading any address after a one-byte write inside memory. -/
theorem peek_writeByte (m : Memory) {a : Nat} (b : Byte) (ha : a < Config.memSize) (x : Nat) :
    (m.writeByte a b).peek x = if x = a then b else m.peek x := by
  have hfree : ∀ d ∈ m.filter (fun c => c.1 != a), d.1 ≠ a := by simp
  have hins := peek_insertCell (a, b) (m.filter (fun c => c.1 != a)) hfree x
  have hother (h : x ≠ a) := peek_filter_other m h
  by_cases hb : b = 0
  · subst hb
    simp only [writeByte, ha, if_true]
    split
    · rename_i h; subst h; exact peek_unlisted hfree
    · rename_i h; exact hother h
  · simp only [writeByte, ha, if_true, if_neg hb, hins]
    by_cases h : x = a
    · simp [h]
    · rw [if_neg (Ne.symm h), if_neg h, hother h]

/-- A write above 4095 changes nothing. -/
theorem writeByte_outside (m : Memory) {a : Nat} (b : Byte) (ha : ¬ a < Config.memSize) : m.writeByte a b = m := by
  simp [writeByte, ha]

/-- READ AFTER WRITE, every address: the written byte at its address, everything else as before. -/
theorem readByte_writeByte (m : Memory) (a : Nat) (b : Byte) (x : Nat) :
    (m.writeByte a b).readByte x = if x = a ∧ a < Config.memSize then some b else m.readByte x := by
  by_cases ha : a < Config.memSize
  · by_cases hx : x = a
    · subst hx; simp [readByte, ha, peek_writeByte m b ha]
    · simp [readByte, hx, peek_writeByte m b ha]
  · simp [writeByte_outside m b ha, ha]

/-- Reading any address after a byte sequence is written inside memory. -/
theorem readByte_writeRange (bytes : List Byte) (m : Memory) (a : Nat) (h : a + bytes.length ≤ Config.memSize) (x : Nat) :
    (m.writeRange a bytes).readByte x = if a ≤ x then (bytes[x - a]?).or (m.readByte x) else m.readByte x := by
  induction bytes generalizing m a with
  | nil => simp [writeRange]
  | cons b bs ih =>
    simp only [List.length_cons] at h
    rw [writeRange, ih _ _ (by omega), readByte_writeByte]
    by_cases h1 : x = a
    · subst h1
      simp [show x < Config.memSize by omega]
    · by_cases h2 : a + 1 ≤ x
      · have : x - a = (x - (a + 1)) + 1 := by omega
        simp [h1, h2, show a ≤ x by omega, this]
      · simp [h1, h2, show ¬ a ≤ x by omega]

/-! ## The canonical form -/

theorem mem_insertCell (c d : Host.Cell) (m : Memory) : d ∈ insertCell c m ↔ d = c ∨ d ∈ m := by
  induction m with
  | nil => simp [insertCell]
  | cons e m ih =>
    unfold insertCell
    split
    · simp
    · simp [ih]; tauto

theorem pairwise_insertCell (c : Host.Cell) (m : Memory) (hm : ∀ d ∈ m, d.1 ≠ c.1)
    (h : m.Pairwise (fun c d => c.1 < d.1)) : (insertCell c m).Pairwise (fun c d => c.1 < d.1) := by
  induction m with
  | nil => simp [insertCell]
  | cons e m ih =>
    have he := List.pairwise_cons.mp h
    unfold insertCell
    split
    · rename_i hlt
      refine List.pairwise_cons.mpr ⟨fun d hd => ?_, h⟩
      rcases List.mem_cons.mp hd with rfl | hd
      · exact hlt
      · exact lt_trans hlt (he.1 d hd)
    · rename_i hlt
      refine List.pairwise_cons.mpr ⟨fun d hd => ?_, ih (fun d hd => hm d (List.mem_cons_of_mem _ hd)) he.2⟩
      rcases (mem_insertCell c d m).mp hd with rfl | hd
      · have := hm e (List.mem_cons_self ..); omega
      · exact he.1 d hd

theorem wf_iff (m : Memory) : m.wf = true ↔
    m.Pairwise (fun c d => c.1 < d.1) ∧ ∀ c ∈ m, c.1 < Config.memSize ∧ c.2 ≠ 0 := by
  simp [wf]

/-- A one-byte write keeps the canonical form. -/
theorem wf_writeByte {m : Memory} (a : Nat) (b : Byte) (h : m.wf = true) : (m.writeByte a b).wf = true := by
  rw [wf_iff] at h ⊢
  have hfree : ∀ d ∈ m.filter (fun c => c.1 != a), d.1 ≠ a := by simp
  have hpw := h.1.filter (fun c => c.1 != a)
  have hall : ∀ d ∈ m.filter (fun c => c.1 != a), d.1 < Config.memSize ∧ d.2 ≠ 0 :=
    fun d hd => h.2 d (List.mem_of_mem_filter hd)
  unfold writeByte
  split
  · rename_i ha
    by_cases hb : b = 0
    · simp only [hb, if_true]; exact ⟨hpw, hall⟩
    · simp only [hb, if_false]
      refine ⟨pairwise_insertCell _ _ hfree hpw, fun c hc => ?_⟩
      rcases (mem_insertCell _ _ _).mp hc with rfl | hc
      · exact ⟨ha, hb⟩
      · exact hall c hc
  · exact h

/-- Writing a byte sequence keeps the canonical form. -/
theorem wf_writeRange (bytes : List Byte) {m : Memory} (a : Nat) (h : m.wf = true) : (m.writeRange a bytes).wf = true := by
  induction bytes generalizing m a with
  | nil => exact h
  | cons b bs ih => exact ih _ (wf_writeByte a b h)

/-! ## Ranges and the fetch -/

@[simp] theorem length_peekRange (m : Memory) (a n : Nat) : (m.peekRange a n).length = n := by
  induction n generalizing a with
  | zero => rfl
  | succ n ih => simp [peekRange, ih]

theorem getElem?_peekRange (m : Memory) (a n r : Nat) :
    (m.peekRange a n)[r]? = if r < n then some (m.peek (a + r)) else none := by
  induction n generalizing a r with
  | zero => simp [peekRange]
  | succ n ih =>
    cases r with
    | zero => simp [peekRange]
    | succ r => simp [peekRange, ih, show a + 1 + r = a + (r + 1) by omega]

/-- What a range read can answer (R53). -/
theorem readRange_cases (m : Memory) (a n : Nat) :
    (m.readRange a n = .outside (max a 4096) ∧ 1 ≤ n ∧ 4096 ≤ a + n - 1) ∨
    (m.readRange a n = .ok (m.peekRange a n) ∧ (n = 0 ∨ a + n - 1 ≤ 4095)) := by
  unfold readRange
  split
  · rename_i h; exact .inl ⟨rfl, h⟩
  · rename_i h
    simp only [Config.memSize] at h
    exact .inr ⟨rfl, by omega⟩

end Sys2Proof.Machine.Memory

namespace Sys2Proof.Machine

/-- What a fetch can answer (R62). -/
theorem fetch_cases (s : State) :
    (4095 ≤ s.pc.toNat ∧ fetch s = .outside (max s.pc.toNat 4096)) ∨
    (s.pc.toNat < 4095 ∧
      fetch s = .ok (wordOfBytes (s.mem.peek s.pc.toNat) (s.mem.peek (s.pc.toNat + 1)))) := by
  unfold fetch Memory.readWord
  rcases Memory.readRange_cases s.mem s.pc.toNat Config.instrBytes with ⟨h, -, h2⟩ | ⟨h, h2⟩
  · simp only [Config.instrBytes] at h2
    rw [h]
    exact .inl ⟨by omega, rfl⟩
  · simp only [Config.instrBytes] at h2
    rw [h]
    exact .inr ⟨by omega, rfl⟩

end Sys2Proof.Machine
end

