-- ==== Sys2Proof/Laws/Draw.lean ====
section
/-! SUPPORT. The blitter: which cells a sprite has, that one draw's destinations are distinct (R157), and what the loop of rule
R151 leaves at each pixel. -/

namespace Sys2Proof.Machine

/-- The cells of a sprite are its rows' bits. -/
theorem mem_spriteCells (rows : List Byte) (r0 : Nat) (c : SpriteCell) :
    c ∈ spriteCells r0 rows ↔
      ∃ k row, rows[k]? = some row ∧ c.r = r0 + k ∧ c.b < 8 ∧ c.bit = spriteBit row c.b := by
  induction rows generalizing r0 with
  | nil => simp [spriteCells]
  | cons row rows ih =>
    obtain ⟨r, b, bit⟩ := c
    simp only [spriteCells, List.mem_append, List.mem_map, List.mem_range, Config.spriteW, SpriteCell.mk.injEq, ih]
    constructor
    · rintro (⟨b', hb, rfl, rfl, rfl⟩ | ⟨k, row', hk, rfl, hb, hbit⟩)
      · exact ⟨0, row, rfl, rfl, hb, rfl⟩
      · exact ⟨k + 1, row', by simpa using hk, by omega, hb, hbit⟩
    · rintro ⟨k, row', hk, rfl, hb, hbit⟩
      cases k with
      | zero =>
        simp only [List.getElem?_cons_zero, Option.some.injEq] at hk
        subst hk
        exact .inl ⟨b, hb, rfl, rfl, hbit.symm⟩
      | succ k => exact .inr ⟨k, row', by simpa using hk, by omega, hb, hbit⟩

/-- The cells come in the loop's order: by row, then from the left (R151). -/
theorem spriteCells_ordered (rows : List Byte) (r0 : Nat) :
    (spriteCells r0 rows).Pairwise (fun c d => c.r < d.r ∨ (c.r = d.r ∧ c.b < d.b)) := by
  induction rows generalizing r0 with
  | nil => simp [spriteCells]
  | cons row rows ih =>
    rw [spriteCells, List.pairwise_append]
    refine ⟨?_, ih _, ?_⟩
    · rw [List.pairwise_map]
      exact List.pairwise_lt_range.imp fun h => .inr ⟨rfl, h⟩
    · intro c hc d hd
      obtain ⟨b, -, rfl⟩ := List.mem_map.mp hc
      obtain ⟨k, -, -, hr, -⟩ := (mem_spriteCells rows _ d).mp hd
      exact .inl (by simp only [hr]; omega)

/-- Two offsets below the modulus that land on the same place are equal. -/
theorem add_mod_inj {o a b m : Nat} (ha : a < m) (hb : b < m) (h : (o + a) % m = (o + b) % m) : a = b := by
  have h' : a % m = b % m := Nat.ModEq.add_left_cancel' o h
  rwa [Nat.mod_eq_of_lt ha, Nat.mod_eq_of_lt hb] at h'

/-- The constraints of rule R7, as inequalities. -/
theorem Params.wf_iff (p : Params) : p.wf = true ↔ 8 ≤ p.fbW ∧ 15 ≤ p.fbH ∧ 1 ≤ p.ipf := by
  simp [Params.wf, and_assoc]

/-- Cells at distinct places of a sprite land on distinct pixels (R157). -/
theorem destination_inj {p : Params} (hp : p.wf = true) (o : Nat × Nat) {c d : SpriteCell} (hc : c.r < 15 ∧ c.b < 8)
    (hd : d.r < 15 ∧ d.b < 8) (h : destination p o c = destination p o d) : c.r = d.r ∧ c.b = d.b := by
  obtain ⟨hw, hh, -⟩ := (Params.wf_iff p).mp hp
  have h1 := congrArg Prod.fst h
  have h2 := congrArg Prod.snd h
  exact ⟨add_mod_inj (by omega) (by omega) h2, add_mod_inj (by omega) (by omega) h1⟩

/-- The destinations of one draw are pairwise distinct (R157). -/
theorem destinations_distinct {p : Params} (hp : p.wf = true) (o : Nat × Nat) {rows : List Byte} (hn : rows.length ≤ 15) :
    (spriteCells 0 rows).Pairwise (fun c d => destination p o c ≠ destination p o d) := by
  have hb : ∀ c ∈ spriteCells 0 rows, c.r < 15 ∧ c.b < 8 := by
    intro c hc
    obtain ⟨k, row, hk, hr, hb, -⟩ := (mem_spriteCells rows 0 c).mp hc
    have := (List.getElem?_eq_some_iff.mp hk).1
    exact ⟨by omega, hb⟩
  refine (spriteCells_ordered rows 0).imp_of_mem fun hc hd hlt heq => ?_
  have := destination_inj hp o (hb _ hc) (hb _ hd) heq
  omega

/-- THE LOOP OF RULE R151 over cells with distinct destinations: each destination is XORed once with its cell's bit, every
other pixel stays, and a collision is a set bit on a pixel that was set before. -/
theorem foldl_blitCell (p : Params) (o : Nat × Nat) (cells : List SpriteCell) (acc : Blitted)
    (hd : cells.Pairwise (fun c d => destination p o c ≠ destination p o d)) :
    (∀ c ∈ cells, (cells.foldl (blitCell p o) acc).fb.get (destination p o c)
        = (acc.fb.get (destination p o c) ^^ c.bit)) ∧
    (∀ q, (∀ c ∈ cells, destination p o c ≠ q) → (cells.foldl (blitCell p o) acc).fb.get q = acc.fb.get q) ∧
    (cells.foldl (blitCell p o) acc).collision
      = (acc.collision || cells.any (fun c => acc.fb.get (destination p o c) && c.bit)) := by
  induction cells generalizing acc with
  | nil => simp
  | cons c cells ih =>
    obtain ⟨hc, hd⟩ := List.pairwise_cons.mp hd
    obtain ⟨i1, i2, i3⟩ := ih (blitCell p o acc c) hd
    have keep : ∀ q, q ≠ destination p o c → (blitCell p o acc c).fb.get q = acc.fb.get q := fun q hq => by
      simp [blitCell, Framebuffer.get_set, hq]
    refine ⟨fun e he => ?_, fun q hq => ?_, ?_⟩
    · rw [List.foldl_cons]
      rcases List.mem_cons.mp he with rfl | he
      · rw [i2 _ fun d hd => (hc d hd).symm]
        simp [blitCell, Framebuffer.get_set]
      · rw [i1 e he, keep _ (hc e he).symm]
    · rw [List.foldl_cons, i2 q fun d hd => hq d (List.mem_cons_of_mem _ hd),
        keep q (Ne.symm (hq c (List.mem_cons_self ..)))]
    · have hany : cells.any (fun d => (blitCell p o acc c).fb.get (destination p o d) && d.bit)
          = cells.any (fun d => acc.fb.get (destination p o d) && d.bit) := by
        rw [Bool.eq_iff_iff]
        simp only [List.any_eq_true]
        exact exists_congr fun d => and_congr_right fun hd => by rw [keep _ (hc d hd).symm]
      rw [List.foldl_cons, i3, hany]
      simp [blitCell, Bool.or_assoc]

/-- Drawing keeps the framebuffer canonical: every destination is inside the grid. -/
theorem foldl_blitCell_wf {p : Params} (hp : p.wf = true) (o : Nat × Nat) (cells : List SpriteCell) (acc : Blitted)
    (h : acc.fb.wf p = true) : (cells.foldl (blitCell p o) acc).fb.wf p = true := by
  obtain ⟨hw, hh, -⟩ := (Params.wf_iff p).mp hp
  induction cells generalizing acc with
  | nil => exact h
  | cons c cells ih =>
    exact ih _ (Framebuffer.wf_set _ (Nat.mod_lt _ (by omega)) (Nat.mod_lt _ (by omega)) h)

theorem blit_wf {p : Params} (hp : p.wf = true) {fb : Framebuffer} (h : fb.wf p = true) (rows : List Byte) (o : Nat × Nat) :
    (blit p fb rows o).fb.wf p = true :=
  foldl_blitCell_wf hp o _ _ h

/-- Drawing keeps scan order, whatever the parameters. -/
theorem blit_pairwise (p : Params) {fb : Framebuffer} (h : fb.Pairwise scanBefore) (rows : List Byte) (o : Nat × Nat) :
    (blit p fb rows o).fb.Pairwise scanBefore := by
  have : ∀ (cells : List SpriteCell) (acc : Blitted), acc.fb.Pairwise scanBefore →
      (cells.foldl (blitCell p o) acc).fb.Pairwise scanBefore := by
    intro cells
    induction cells with
    | nil => exact fun _ h => h
    | cons c cells ih =>
      refine fun acc h => ih _ ?_
      simp only [blitCell, Framebuffer.set]
      split
      · exact Framebuffer.pairwise_insertPixel _ _ h
      · exact h.filter _
  exact this _ _ h

/-- What a draw can do (R150): AddressError when a row lies above 4095, otherwise the blit, the flag and pc + 2. -/
theorem execDrw_cases (x y : Reg) (n : Nat) (s : State) :
    (execDrw x y n s = .next (s.takeAddressError (max s.index.toNat 4096)) ∧ 1 ≤ n ∧ 4096 ≤ s.index.toNat + n - 1) ∨
    ((n = 0 ∨ s.index.toNat + n - 1 ≤ 4095) ∧
      execDrw x y n s = .next (((s.withFb
        (blit s.params s.fb (s.mem.peekRange s.index.toNat n) (drawOrigin x y s)).fb).writeV flagReg
        (flagByte (blit s.params s.fb (s.mem.peekRange s.index.toNat n) (drawOrigin x y s)).collision)).advancePc 2)) := by
  unfold execDrw spriteRows
  rcases Memory.readRange_cases s.mem s.index.toNat n with ⟨h, h1, h2⟩ | ⟨h, h2⟩
  · rw [h]; exact .inl ⟨rfl, h1, h2⟩
  · rw [h]; exact .inr ⟨h2, rfl⟩

end Sys2Proof.Machine
end

