-- ==== Sys2Proof/Laws/PerInstr.lean ====
section
/-! SUPPORT. Statements about every instruction as syntax, one lemma per constructor. -/

namespace Sys2Proof.Laws.EncodesItsRow

/-- The word of an instruction belongs to the row of rule R86 that carries the instruction's mnemonic. -/
def Statement (i : Instr) : Prop :=
  ∃ row ∈ opcodeRows, row.mnemonic = i.mnemonic ∧ row.holds (encodeWord i) = true

/-- A word of a row whose mask is 0xF000. -/
theorem holds_family (m : String) (v w : Word) (h : BitVec.ofNat 16 ((family w).toNat * 4096) = v) :
    OpcodeRow.holds ⟨m, 0xF000, v⟩ w = true := by
  simp only [OpcodeRow.holds, mask_family, h, beq_self_eq_true]

/-- A word of a row whose mask is 0xF00F. -/
theorem holds_family_low (m : String) (v w : Word)
    (h : BitVec.ofNat 16 ((family w).toNat * 4096 + (fieldN w).toNat) = v) :
    OpcodeRow.holds ⟨m, 0xF00F, v⟩ w = true := by
  simp only [OpcodeRow.holds, mask_family_low, h, beq_self_eq_true]

theorem jp (nnn : BitVec 12) : Statement (.jp nnn) :=
  ⟨⟨"JP", 0xF000, 0x1000⟩, by decide, rfl, holds_family _ _ _ (by simp [encodeWord])⟩

theorem se (x : Reg) (nn : Byte) : Statement (.se x nn) :=
  ⟨⟨"SE", 0xF000, 0x3000⟩, by decide, rfl, holds_family _ _ _ (by simp [encodeWord])⟩

theorem ldi (x : Reg) (nn : Byte) : Statement (.ldi x nn) :=
  ⟨⟨"LDI", 0xF000, 0x6000⟩, by decide, rfl, holds_family _ _ _ (by simp [encodeWord])⟩

theorem addi (x : Reg) (nn : Byte) : Statement (.addi x nn) :=
  ⟨⟨"ADDI", 0xF000, 0x7000⟩, by decide, rfl, holds_family _ _ _ (by simp [encodeWord])⟩

theorem mov (x y : Reg) : Statement (.mov x y) :=
  ⟨⟨"MOV", 0xF00F, 0x8000⟩, by decide, rfl, holds_family_low _ _ _ (by simp [encodeWord])⟩

theorem or (x y : Reg) : Statement (.or x y) :=
  ⟨⟨"OR", 0xF00F, 0x8001⟩, by decide, rfl, holds_family_low _ _ _ (by simp [encodeWord])⟩

theorem and (x y : Reg) : Statement (.and x y) :=
  ⟨⟨"AND", 0xF00F, 0x8002⟩, by decide, rfl, holds_family_low _ _ _ (by simp [encodeWord])⟩

theorem xor (x y : Reg) : Statement (.xor x y) :=
  ⟨⟨"XOR", 0xF00F, 0x8003⟩, by decide, rfl, holds_family_low _ _ _ (by simp [encodeWord])⟩

theorem add (x y : Reg) : Statement (.add x y) :=
  ⟨⟨"ADD", 0xF00F, 0x8004⟩, by decide, rfl, holds_family_low _ _ _ (by simp [encodeWord])⟩

theorem sub (x y : Reg) : Statement (.sub x y) :=
  ⟨⟨"SUB", 0xF00F, 0x8005⟩, by decide, rfl, holds_family_low _ _ _ (by simp [encodeWord])⟩

theorem shr (x y : Reg) : Statement (.shr x y) :=
  ⟨⟨"SHR", 0xF00F, 0x8006⟩, by decide, rfl, holds_family_low _ _ _ (by simp [encodeWord])⟩

theorem subn (x y : Reg) : Statement (.subn x y) :=
  ⟨⟨"SUBN", 0xF00F, 0x8007⟩, by decide, rfl, holds_family_low _ _ _ (by simp [encodeWord])⟩

theorem shl (x y : Reg) : Statement (.shl x y) :=
  ⟨⟨"SHL", 0xF00F, 0x800E⟩, by decide, rfl, holds_family_low _ _ _ (by simp [encodeWord])⟩

theorem drw (x y : Reg) (n : Nat) : Statement (.drw x y n) :=
  ⟨⟨"DRW", 0xF000, 0xD000⟩, by decide, rfl, holds_family _ _ _ (by simp [encodeWord])⟩

end Sys2Proof.Laws.EncodesItsRow
end

