-- ==== Sys2Proof/Laws/Step.lean ====
section
/-! SUPPORT. Everything an instruction and a step can do, said once. -/

namespace Sys2Proof.Machine

/-- The pc that a completed instruction leaves (R23). -/
def pcAfter (i : Instr) (s : State) : Word :=
  match i with
  | .jp nnn => jumpTarget nnn
  | .se x nn => if s.readV x = nn then s.pc + 4 else s.pc + 2
  | _ => s.pc + 2

/-- The instruction draws. -/
def isDraw : Instr → Bool
  | .drw _ _ _ => true
  | _ => false

/-- What every completed instruction leaves alone, and its pc. -/
structure Completed (i : Instr) (s t : State) : Prop where
  pc : t.pc = pcAfter i s
  index : t.index = s.index
  mem : t.mem = s.mem
  run : t.run = s.run
  fault : t.fault = s.fault
  params : t.params = s.params
  fb : isDraw i = false → t.fb = s.fb
  fbWf : s.params.wf = true → s.fb.wf s.params = true → t.fb.wf s.params = true

/-- Everything an instruction can do: complete, or (a draw with a row above 4095) enter AddressError. -/
theorem exec_cases (i : Instr) (s : State) :
    (∃ t, exec i s = .next t ∧ Completed i s t) ∨
    (∃ x y n, i = .drw x y n ∧ 1 ≤ n ∧ 4096 ≤ s.index.toNat + n - 1 ∧
      exec i s = .next (s.takeAddressError (max s.index.toNat 4096))) := by
  cases i with
  | drw x y n =>
    rcases execDrw_cases x y n s with ⟨h, h1, h2⟩ | ⟨-, h⟩
    · exact .inr ⟨x, y, n, rfl, h1, h2, h⟩
    · exact .inl ⟨_, h, rfl, rfl, rfl, rfl, rfl, rfl, nofun, fun hp hf => blit_wf hp hf _ _⟩
  | se x nn =>
    refine .inl ⟨_, rfl, ?_, rfl, rfl, rfl, rfl, rfl, fun _ => rfl, fun _ h => h⟩
    simp only [pcAfter, State.advancePc_pc]
    split <;> rfl
  | jp nnn => exact .inl ⟨_, rfl, rfl, rfl, rfl, rfl, rfl, rfl, fun _ => rfl, fun _ h => h⟩
  | _ => exact .inl ⟨_, rfl, rfl, rfl, rfl, rfl, rfl, rfl, fun _ => rfl, fun _ h => h⟩

/-- Everything a step can do (R101). -/
theorem step_cases (s : State) :
    (s.run = .faulted ∧ step s = .fault .halted) ∨
    (s.run = .running ∧ 4095 ≤ s.pc.toNat ∧ step s = .next (s.takeAddressError (max s.pc.toNat 4096))) ∨
    (∃ w r, s.run = .running ∧ s.pc.toNat < 4095 ∧ fetch s = .ok w ∧ decodeWord w = .reject r ∧
      step s = .next (s.takeDecodeError w)) ∨
    (∃ w i, s.run = .running ∧ s.pc.toNat < 4095 ∧ fetch s = .ok w ∧ decodeWord w = .ok i ∧ step s = exec i s) := by
  cases hr : s.run with
  | faulted => exact .inl ⟨rfl, by simp [step, hr]⟩
  | running =>
    refine .inr ?_
    rcases fetch_cases s with ⟨hpc, hf⟩ | ⟨hpc, hf⟩
    · exact .inl ⟨rfl, hpc, by simp [step, hr, hf]⟩
    · refine .inr ?_
      cases hd : decodeWord (wordOfBytes (s.mem.peek s.pc.toNat) (s.mem.peek (s.pc.toNat + 1))) with
      | reject r => exact .inl ⟨_, r, rfl, hpc, hf, hd, by simp [step, hr, hf, hd]⟩
      | ok i => exact .inr ⟨_, i, rfl, hpc, hf, hd, by simp [step, hr, hf, hd]⟩

/-- A running unit always has a next state, and what it can be. -/
theorem step_running {s : State} (hr : s.run = .running) :
    (∃ w i t, fetch s = .ok w ∧ s.pc.toNat < 4095 ∧ decodeWord w = .ok i ∧ exec i s = .next t ∧ step s = .next t ∧
      Completed i s t) ∨
    (∃ cause info, step s = .next (s.takeFault cause info) ∧ (cause = .decodeError ∨ cause = .addressError)) := by
  rcases step_cases s with ⟨h, -⟩ | ⟨-, -, h⟩ | ⟨w, r, -, -, -, -, h⟩ | ⟨w, i, -, hpc, hf, hd, h⟩
  · rw [hr] at h; exact absurd h (by decide)
  · exact .inr ⟨_, _, h, .inr rfl⟩
  · exact .inr ⟨_, _, h, .inl rfl⟩
  · rcases exec_cases i s with ⟨t, ht, hc⟩ | ⟨x, y, n, -, -, -, ht⟩
    · exact .inl ⟨w, i, t, hf, hpc, hd, ht, h.trans ht, hc⟩
    · exact .inr ⟨_, _, h.trans ht, .inr rfl⟩

/-- What a step with its result can be (R100, R101). -/
theorem specStep_cases (s : State) :
    (s.run = .faulted ∧ specStep s = (s, .halted)) ∨
    (∃ w i t, s.run = .running ∧ fetch s = .ok w ∧ decodeWord w = .ok i ∧ exec i s = .next t ∧ step s = .next t ∧
      Completed i s t ∧ specStep s = (t, .ok { instr := w, v := t.v, pc := t.pc })) ∨
    (∃ cause info, s.run = .running ∧ step s = .next (s.takeFault cause info) ∧
      specStep s = (s.takeFault cause info, .fault { cause := cause, pc := s.pc, info := info })) := by
  cases hr : s.run with
  | faulted => exact .inl ⟨rfl, by simp [specStep, step, hr]⟩
  | running =>
    refine .inr ?_
    rcases step_running hr with ⟨w, i, t, hf, -, hd, ht, hs, hc⟩ | ⟨cause, info, hs, -⟩
    · exact .inl ⟨w, i, t, rfl, hf, hd, ht, hs, hc, by simp [specStep, hs, stepReport, hc.run, hr, hf]⟩
    · exact .inr ⟨cause, info, rfl, hs, by simp [specStep, hs, stepReport]⟩

end Sys2Proof.Machine
end

