-- ==== Sys2Proof/Tests/Slice0.lean ====
section
/-! SUPPORT. The model's own tests. Expected results are the spec's: its decode table, vectors and examples (95_test_vectors.md,
whose vector names stand in the test names' comments), or worked out by hand from the rules named. Each runs one step or one
transaction on a small state. The last part gives, for every statement with hypotheses, a state and operands that meet them. -/

namespace Sys2Proof.Tests

open Sys2Proof.Machine

/-! ## Helpers -/

/-- The start-up state with a word at pc. -/
def atWord (w : Word) : State := State.reset.placeWord w

/-- A launch state (R31): registers set. -/
def withRegs (s : State) (l : List (Reg × Byte)) : State := l.foldl (fun s p => s.writeV p.1 p.2) s

/-- A launch state (R31): I set and sprite bytes stored there. -/
def withSprite (s : State) (i : Word) (bytes : List Byte) : State :=
  { s with index := i, mem := s.mem.writeRange i.toNat bytes }

/-- The state after one step. -/
def after (s : State) : Option State :=
  match step s with
  | .next t => some t
  | .fault _ => none
  | .refused _ => none

/-- V1, V[0xF] and pc after one step. -/
def seen (s : State) : Option (Byte × Byte × Word) := (after s).map fun t => (t.readV 0x1, t.readV 0xF, t.pc)

/-- V[0xF], pc, RUN and the set pixels after one step. -/
def drawn (s : State) : Option (Byte × Word × RunStatus × Framebuffer) :=
  (after s).map fun t => (t.readV 0xF, t.pc, t.run, t.fb)

/-- FAULT, pc and RUN after one step. -/
def faulted (s : State) : Option (FaultRecord × Word × RunStatus) := (after s).map fun t => (t.fault, t.pc, t.run)

/-! ## WellFormed: the one check, an ill-formed term refused -/

theorem test_wellFormed_refuses_sixteen_rows : (Instr.drw 0x0 0x1 16).wellFormed = false := by decide

theorem test_wellFormed_accepts_row_bounds :
    (Instr.drw 0x0 0x1 15).wellFormed = true ∧ (Instr.drw 0x0 0x1 0).wellFormed = true := by decide

/-! ## Decode: words written out bit by bit from the formats of R81 (family, fields, sub-operation) -/

theorem test_decode_jp : decodeWord 0b0001_0010_0000_0010 = .ok (.jp 0x202) := by decide
theorem test_decode_se : decodeWord 0b0011_0000_0000_1010 = .ok (.se 0x0 0x0A) := by decide
theorem test_decode_ldi : decodeWord 0b0110_1010_0000_0111 = .ok (.ldi 0xA 0x07) := by decide
theorem test_decode_addi : decodeWord 0b0111_1010_1111_1111 = .ok (.addi 0xA 0xFF) := by decide
theorem test_decode_mov : decodeWord 0b1000_0001_0010_0000 = .ok (.mov 0x1 0x2) := by decide
theorem test_decode_or : decodeWord 0b1000_0001_0010_0001 = .ok (.or 0x1 0x2) := by decide
theorem test_decode_and : decodeWord 0b1000_0001_0010_0010 = .ok (.and 0x1 0x2) := by decide
theorem test_decode_xor : decodeWord 0b1000_0001_0010_0011 = .ok (.xor 0x1 0x2) := by decide
theorem test_decode_add : decodeWord 0b1000_1010_1011_0100 = .ok (.add 0xA 0xB) := by decide
theorem test_decode_sub : decodeWord 0b1000_0001_0010_0101 = .ok (.sub 0x1 0x2) := by decide
theorem test_decode_shr : decodeWord 0b1000_1111_0000_0110 = .ok (.shr 0xF 0x0) := by decide
theorem test_decode_subn : decodeWord 0b1000_0001_0010_0111 = .ok (.subn 0x1 0x2) := by decide
theorem test_decode_shl_keeps_y : decodeWord 0b1000_0001_1111_1110 = .ok (.shl 0x1 0xF) := by decide
theorem test_decode_drw : decodeWord 0b1101_0001_0010_1111 = .ok (.drw 0x1 0x2 15) := by decide

/-- Illegal words: E10 and E13. -/
theorem test_decode_illegal : decodeWord 0x8128 = .reject (.unlistedSubOperation 0x8128) ∧
    decodeWord 0xA300 = .reject (.unlistedFamily 0xA300) := by decide

theorem test_decode_truncated : decodeBytes [0x12] = .reject .truncated := by decide

/-- R91: the encoder gives the word, R50: high byte first. -/
theorem test_encode_bytes : encode (.jp 0x202) = [0x12, 0x02] ∧ encode (.drw 0xA 0xB 0) = [0xDA, 0xB0] := by decide

theorem test_decodeTableWord : decodeTableWord 16 0x8AB4 = some (.add 0xA 0xB) ∧ decodeTableWord 16 0x0000 = none := by decide

/-! ## Control transfer -/

/-- J1. -/
theorem test_jp_backward : (after ((State.reset.jumpTo 0x206).placeWord 0x1202)).map (·.pc) = some 0x202 := by decide
/-- J3: 0xFFF is accepted. -/
theorem test_jp_last_address : (after (atWord 0x1FFF)).map (fun t => (t.pc, t.run)) = some (0xFFF, .running) := by decide
/-- K1 and K2. -/
theorem test_se : (after ((withRegs (State.reset.jumpTo 0x204) [(0x0, 0x0A)]).placeWord 0x300A)).map (·.pc) = some 0x208 ∧
    (after ((withRegs (State.reset.jumpTo 0x204) [(0x0, 0x05)]).placeWord 0x300A)).map (·.pc) = some 0x206 := by decide
/-- K5: no wrap above 4095. -/
theorem test_se_at_last_word : (after ((State.reset.jumpTo 0xFFE).placeWord 0x3000)).map (·.pc) = some 0x1002 := by decide

/-! ## Immediates -/

/-- M1. -/
theorem test_ldi : (after (atWord 0x6A07)).map (fun t => (t.readV 0xA, t.pc)) = some (0x07, 0x202) := by decide
/-- M8: an overflow leaves V[0xF]. -/
theorem test_addi_no_flag : (after (withRegs (atWord 0x7080) [(0x0, 0x80), (0xF, 0x01)])).map
    (fun t => (t.readV 0x0, t.readV 0xF)) = some (0x00, 0x01) := by decide
/-- M7: V[0xF] as the destination. -/
theorem test_addi_flag_register : (after (withRegs (atWord 0x7F02) [(0xF, 0xFF)])).map (·.readV 0xF) = some 0x01 := by decide

/-! ## Arithmetic and logic: vectors A0.1 to AE.1 (V[0xF] = 0x55 before), then the XF, YF and XY tables -/

theorem test_mov : seen (withRegs (atWord 0x8120) [(0x1, 0x12), (0x2, 0x34), (0xF, 0x55)]) = some (0x34, 0x55, 0x202) := by
  decide
theorem test_or : seen (withRegs (atWord 0x8121) [(0x1, 0xF0), (0x2, 0x0F), (0xF, 0x55)]) = some (0xFF, 0x00, 0x202) := by
  decide
theorem test_and : seen (withRegs (atWord 0x8122) [(0x1, 0xF0), (0x2, 0x3C), (0xF, 0x55)]) = some (0x30, 0x00, 0x202) := by
  decide
theorem test_xor : seen (withRegs (atWord 0x8123) [(0x1, 0xFF), (0x2, 0x0F), (0xF, 0x55)]) = some (0xF0, 0x00, 0x202) := by
  decide
theorem test_add_carry : seen (withRegs (atWord 0x8124) [(0x1, 0xFF), (0x2, 0x01)]) = some (0x00, 0x01, 0x202) := by decide
theorem test_sub_borrow : seen (withRegs (atWord 0x8125) [(0x1, 0x05), (0x2, 0x0A), (0xF, 0x55)]) = some (0xFB, 0x00, 0x202) := by
  decide
theorem test_shr : seen (withRegs (atWord 0x8126) [(0x1, 0x05), (0x2, 0x99)]) = some (0x02, 0x01, 0x202) := by decide
theorem test_subn : seen (withRegs (atWord 0x8127) [(0x1, 0x05), (0x2, 0x0A)]) = some (0x05, 0x01, 0x202) := by decide
theorem test_shl : seen (withRegs (atWord 0x812E) [(0x1, 0x81), (0x2, 0x99)]) = some (0x02, 0x01, 0x202) := by decide
/-- XF.4: the flag survives. -/
theorem test_add_into_flag : (after (withRegs (atWord 0x8F24) [(0xF, 0x83), (0x2, 0x90)])).map (·.readV 0xF) = some 0x01 := by
  decide
/-- XF.6 and XF.E: the shifted value survives. -/
theorem test_shift_flag_register :
    (after (withRegs (atWord 0x8F26) [(0xF, 0x83), (0x2, 0x90)])).map (·.readV 0xF) = some 0x41 ∧
    (after (withRegs (atWord 0x8F2E) [(0xF, 0x83), (0x2, 0x90)])).map (·.readV 0xF) = some 0x06 := by decide
/-- YF.5: the operand is the old V[0xF]. -/
theorem test_sub_flag_operand : seen (withRegs (atWord 0x81F5) [(0x1, 0x90), (0xF, 0x83)]) = some (0x0D, 0x01, 0x202) := by decide
/-- XY.7. -/
theorem test_subn_same_register : (after (withRegs (atWord 0x8337) [(0x3, 0xC3)])).map
    (fun t => (t.readV 0x3, t.readV 0xF)) = some (0x00, 0x01) := by decide

/-! ## Draw -/

/-- T3: XOR, a collision, rows downward. -/
theorem test_drw_collision :
    drawn ({ withSprite (withRegs (atWord 0xD012) [(0x0, 0x05), (0x1, 0x02)]) 0x300 [0xF0, 0x90] with fb := [(8, 3), (9, 3)] })
      = some (0x01, 0x202, .running, [(5, 2), (6, 2), (7, 2), (8, 2), (5, 3), (9, 3)]) := by decide
/-- T5: wraps on both axes. -/
theorem test_drw_wraps :
    drawn (withSprite (withRegs (atWord 0xD012) [(0x0, 0x3E), (0x1, 0x1F)]) 0x300 [0xFF, 0x81])
      = some (0x00, 0x202, .running, [(5, 0), (62, 0), (0, 31), (1, 31), (2, 31), (3, 31), (4, 31), (5, 31), (62, 31), (63, 31)]) := by
  decide
/-- T13: a sprite that leaves memory draws nothing. -/
theorem test_drw_address_error :
    let s := { withSprite (withRegs (atWord 0xD012) [(0xF, 0x09)]) 0xFFF [0xFF] with fb := [(0, 0)] }
    drawn s = some (0x09, 0x200, .faulted, [(0, 0)]) ∧ faulted s = some (⟨.addressError, 0x200, 0x1000⟩, 0x200, .faulted) := by
  decide
/-- T8: no rows, whatever I holds. -/
theorem test_drw_no_rows :
    drawn ({ withRegs (atWord 0xD010) [(0x0, 0x05), (0x1, 0x02), (0xF, 0x07)] with index := 0xFFFF, fb := [(5, 2)] })
      = some (0x00, 0x202, .running, [(5, 2)]) := by decide
/-- R158: the calls of T4, the eight touched pixels with their final values. -/
theorem test_drw_calls :
    (stepCalls ({ withSprite (atWord 0xD011) 0x300 [0x80] with fb := [(1, 0)] })).map (fun c => (c.at_.1, c.isSet))
      = [(0, true), (1, true), (2, false), (3, false), (4, false), (5, false), (6, false), (7, false)] := by decide

/-! ## Faults, the halted state and fetch -/

/-- F1. -/
theorem test_zero_word_faults : faulted State.reset = some (⟨.decodeError, 0x200, 0x0000⟩, 0x200, .faulted) := by decide
/-- Q1: one byte of an instruction is not enough. -/
theorem test_fetch_at_last_byte : faulted ({ State.reset with pc := 0xFFF, mem := [(0xFFF, 0x60)] })
    = some (⟨.addressError, 0xFFF, 0x1000⟩, 0xFFF, .faulted) := by decide
/-- Q3. -/
theorem test_fetch_reports_pc : faulted (State.reset.jumpTo 0xFFFF) = some (⟨.addressError, 0xFFFF, 0xFFFF⟩, 0xFFFF, .faulted) := by
  decide
/-- Q5: an odd pc executes. -/
theorem test_odd_pc : (after ((State.reset.jumpTo 0x201).placeWord 0x6A07)).map (fun t => (t.readV 0xA, t.pc)) = some (0x07, 0x203) := by
  decide
/-- H1: after the fault, halted and unchanged. -/
theorem test_halted : specStep (State.reset.takeDecodeError 0) = (State.reset.takeDecodeError 0, .halted) := by decide
/-- H2: reset keeps the framebuffer and clears the rest. -/
theorem test_reset_after_fault :
    ({ (State.reset.takeDecodeError 0x2234) with fb := [(1, 1)], mem := [(0x200, 0x22)] }).hostReset
      = { State.reset with fb := [(1, 1)] } := by decide

/-! ## Host transactions -/

/-- L1. -/
theorem test_load : (load [0x60, 0x00, 0x70, 0x01, 0x30, 0x0A] State.reset).1.mem
    = [(0x200, 0x60), (0x202, 0x70), (0x203, 0x01), (0x204, 0x30), (0x205, 0x0A)] := by decide
/-- L4. -/
theorem test_load_too_long (bytes : List Byte) (h : bytes.length = 3585) :
    load bytes State.reset = (State.reset, .loadError 3585) := by simp [load, h]
/-- The trace of M1 (2.9). -/
theorem test_trace : (specStep (atWord 0x6A07)).2 = .ok
    { instr := 0x6A07, v := #v[0, 0, 0, 0, 0, 0, 0, 0, 0, 0, 7, 0, 0, 0, 0, 0], pc := 0x202 } := by decide
/-- A batch of IPF = 2 steps stops at the fault after the first (P5's second line left out). -/
theorem test_batch_stops_at_fault :
    let b := runBatch { (atWord 0x6A07) with params := { ipf := 2 } }
    b.result = .fault ⟨.decodeError, 0x202, 0x0000⟩ ∧ b.traces.length = 1 ∧ b.state.run = .faulted := by decide
/-- The word placed for the next fetch is the one the next step runs. -/
theorem test_withFetchWord : (after (State.reset.withFetchWord 16 0x6A07)).map (·.readV 0xA) = some 0x07 := by decide

/-! ## Witnesses: hypotheses of the statements that can be met -/

theorem witness_DecodeOfEncodeReturnsInstr :
    (Instr.drw 0xF 0x0 15).wellFormed = true ∧ (Instr.drw 0xF 0x0 0).wellFormed = true ∧ (Instr.shl 0xF 0xF).wellFormed = true := by
  decide
theorem witness_EncodeOfDecodeReturnsWord : decodeWord 0xD12F = .ok (.drw 0x1 0x2 15) := by decide
/-- For every word there are fields that meet the hypotheses of DecodeFollowsOpcodeMap; here those of 0x81FE. -/
theorem witness_DecodeFollowsOpcodeMap :
    (0x1 : Reg).val = (((0x81FE : Word) &&& 0x0F00) >>> 8).toNat ∧ (0xF : Reg).val = (((0x81FE : Word) &&& 0x00F0) >>> 4).toNat ∧
    (0xFE : Byte).toNat = ((0x81FE : Word) &&& 0x00FF).toNat ∧ (0x1FE : BitVec 12).toNat = ((0x81FE : Word) &&& 0x0FFF).toNat ∧
    14 = ((0x81FE : Word) &&& 0x000F).toNat := by decide
/-- Both clauses of FetchIsBigEndianInRange, at the values where they meet. -/
theorem witness_FetchIsBigEndianInRange :
    4095 ≤ (State.reset.jumpTo 0xFFF).pc.toNat ∧ (State.reset.jumpTo 0xFFE).pc.toNat < 4095 ∧ State.reset.run = .running ∧
    fetch (State.reset.jumpTo 0xFFF) = .outside 4096 := by decide
theorem witness_AccessesStayInMemory :
    1 ≤ 2 ∧ 4095 < ({ State.reset with index := 0xFFF }).index.toNat + 2 - 1 ∧
    ¬ 4095 < ({ State.reset with index := 0xFFF }).index.toNat + 1 - 1 := by decide
theorem witness_StepRunsDecodedInstruction :
    (atWord 0x6A07).run = .running ∧ (atWord 0x6A07).mem.readByte (atWord 0x6A07).pc.toNat = some 0x6A ∧
    (atWord 0x6A07).mem.readByte ((atWord 0x6A07).pc.toNat + 1) = some 0x07 ∧
    decodeBytes [0x6A, 0x07] = .ok (.ldi 0xA 0x07, []) := by decide
theorem witness_EveryRunningStepAnswers : State.reset.run = .running := by decide
/-- Both kinds of illegal word, fetched by a running unit, and the faulted state after one. -/
theorem witness_IllegalWordTakesDecodeError :
    State.reset.run = .running ∧ fetch (atWord 0x2234) = .ok 0x2234 ∧ illegalWord 0x2234 = true ∧
    fetch (atWord 0x812F) = .ok 0x812F ∧ illegalWord 0x812F = true ∧
    (after (atWord 0x812F)).map (fun t => (t.run, t.fault.cause)) = some (.faulted, .decodeError) := by decide
/-- The three clauses of AddressErrorExactlyWhen. -/
theorem witness_AddressErrorExactlyWhen :
    4095 ≤ (State.reset.jumpTo 0xFFF).pc.toNat ∧
    fetch (withSprite (atWord 0xD012) 0xFFF []) = .ok 0xD012 ∧ decodeWord 0xD012 = .ok (.drw 0x0 0x1 2) ∧
    4095 < (withSprite (atWord 0xD012) 0xFFF []).index.toNat + 2 - 1 ∧
    (after (withSprite (atWord 0xD012) 0xFFF [])).map (fun t => (t.run, t.fault.cause)) = some (.faulted, .addressError) := by decide
theorem witness_FaultEntryIsPrecise :
    State.reset.run = .running ∧ step State.reset = .next (State.reset.takeDecodeError 0) ∧
    (State.reset.takeDecodeError 0).run = .faulted := ⟨rfl, rfl, rfl⟩
theorem witness_HaltedUnitHasNoStep : (State.reset.takeDecodeError 0).run = .faulted := by decide
theorem witness_FaultIsFinal :
    (State.reset.takeDecodeError 0).run = .faulted ∧
    ((Session.move { state := State.reset.takeDecodeError 0, phase := .booted } .runBatch).isSome = true) ∧
    ((Session.move { state := State.reset.takeDecodeError 0, phase := .awaitingLoad } (.load [0x12])).isSome = true) := by decide
/-- The three pc rules of PcPostcondition. -/
theorem witness_PcPostcondition :
    fetch (atWord 0x1FFF) = .ok 0x1FFF ∧ decodeWord 0x1FFF = .ok (.jp 0xFFF) ∧
    (after (atWord 0x1FFF)).map (fun t => (t.run, t.pc)) = some (.running, 0xFFF) ∧
    fetch ((State.reset.jumpTo 0xFFE).placeWord 0x3000) = .ok 0x3000 ∧ decodeWord 0x3000 = .ok (.se 0x0 0x00) ∧
    (after ((State.reset.jumpTo 0xFFE).placeWord 0x3000)).map (fun t => (t.run, t.pc)) = some (.running, 0x1002) ∧
    (after ((State.reset.jumpTo 0xFFE).placeWord 0x6011)).map (fun t => (t.run, t.pc)) = some (.running, 0x1000) := by decide
/-- Each clause of TraceRecordContents: a completed step, an illegal word, a halted step, a fetch at 4095, a draw at its limit. -/
theorem witness_TraceRecordContents :
    specStep (atWord 0x1200) = (atWord 0x1200, .ok { instr := 0x1200, v := (atWord 0x1200).v, pc := 0x200 }) ∧
    step (atWord 0x1200) = .next (atWord 0x1200) ∧ (atWord 0x1200).run = .running ∧
    specStep State.reset = (State.reset.takeDecodeError 0, .fault ⟨.decodeError, 0x200, 0⟩) ∧
    specStep (State.reset.takeDecodeError 0) = (State.reset.takeDecodeError 0, .halted) ∧
    fetch (State.reset.jumpTo 0xFFF) = .outside 4096 ∧
    (specStep (withSprite (atWord 0xD012) 0xFFF [])).2 = .fault ⟨.addressError, 0x200, 0x1000⟩ :=
  ⟨by decide, rfl, by decide, by decide, by decide, by decide, by decide⟩
theorem witness_BatchSplitsAnywhere :
    (runSteps 1 (atWord 0x1200)).result = .ok ∧ (runSteps 1 State.reset).result ≠ .ok := by decide
theorem witness_JumpToSelfIsFixedPoint :
    (atWord 0x1200).run = .running ∧ (atWord 0x1200).pc = (0x200 : BitVec 12).setWidth 16 ∧
    fetch (atWord 0x1200) = .ok (encodeWord (.jp 0x200)) := by decide
/-- A drawing step with a surface that shows nothing yet (no pixel shown) and its calls in reverse order. -/
theorem witness_HostSurfaceMirrorsFramebuffer :
    (after (withSprite (atWord 0xD011) 0x300 [0x80])).isSome = true ∧ (stepCalls (withSprite (atWord 0xD011) 0x300 [0x80])).length = 8 ∧
    State.reset.params.wf = true := by decide
/-- A run that draws one pixel and then faults, with a surface that shows the whole framebuffer before it. -/
theorem witness_RunMirrorsFramebuffer :
    (runSteps 1 (withSprite (atWord 0xD011) 0x300 [0x80])).result = .ok ∧
    (runSteps 2 (withSprite (atWord 0xD011) 0x300 [0x80])).result ≠ .ok ∧
    (∀ p, True → Framebuffer.get [] p = (withSprite (atWord 0xD011) 0x300 [0x80]).fb.get p) ∧
    (runSteps 1 (withSprite (atWord 0xD011) 0x300 [0x80])).state.fb = [(0, 0)] :=
  ⟨by decide, by decide, fun _ _ => rfl, by decide⟩
theorem witness_LoadCopiesProgram :
    ([0x12, 0x00] : List Byte).length ≤ 3584 ∧ ([0x12, 0x00] : List Byte)[1]? = some 0x00 ∧
    (List.replicate 3585 (0xFF : Byte)).length = 3585 := ⟨by decide, rfl, List.length_replicate⟩
/-- Both phases, and a load at each side of the size limit (R213): 3584 bytes are accepted, 3585 refused. -/
theorem witness_LoadOnlyBeforeFirstStep :
    (Session.start {} []).phase = .awaitingLoad ∧ (Session.mk State.reset .booted).phase = .booted ∧
    (List.replicate 3584 (0xFF : Byte)).length ≤ 3584 ∧ 3584 < (List.replicate 3585 (0xFF : Byte)).length ∧
    ((Session.start {} []).move (.load (List.replicate 3584 0xFF))).map (·.2) = some (.loaded .ok) ∧
    ((Session.start {} []).move (.load (List.replicate 3585 0xFF))).map (·.2) = some (.loaded (.loadError 3585)) := by
  have accepted : ∀ b : List Byte, b.length ≤ 3584 →
      ((Session.start {} []).move (.load b)).map (·.2) = some (.loaded .ok) := fun b h => by
    simp [Session.start, Session.move, load, Nat.not_lt.mpr h]
  have refused : ∀ b : List Byte, 3584 < b.length →
      ((Session.start {} []).move (.load b)).map (·.2) = some (.loaded (.loadError b.length)) := fun b h => by
    simp [Session.start, Session.move, load, h]
  have at3585 := refused (List.replicate 3585 0xFF) (by rw [List.length_replicate]; decide)
  rw [List.length_replicate] at at3585
  exact ⟨rfl, rfl, by rw [List.length_replicate], by rw [List.length_replicate]; decide,
    accepted _ (by rw [List.length_replicate]), at3585⟩
theorem witness_FlagRegisterDiscipline :
    State.reset.run = .running ∧ exec (.or 0x0 0x1) State.reset = .next (State.reset.resultThenFlag 0x0 0 0) ∧
    (State.reset.resultThenFlag 0x0 0 0).run = .running := ⟨rfl, rfl, rfl⟩
theorem witness_OnlyListedRegistersChange :
    (after (atWord 0x6A07)).map (·.readV 0xA) = some 0x07 ∧ (atWord 0x6A07).readV 0xA = 0x00 := by decide
/-- The edges of the draw's hypotheses: no row, fifteen rows ending at the last byte and one byte past it, the smallest legal
framebuffer. -/
theorem witness_DrawCompositesSprite :
    spriteInRange 0 { State.reset with index := 0xFFFF } ∧ spriteInRange 15 { State.reset with index := 0xFF1 } ∧
    ¬ spriteInRange 15 { State.reset with index := 0xFF2 } ∧
    State.reset.params.wf = true ∧ (Params.mk 8 15 1).wf = true := by
  refine ⟨.inl rfl, .inr ?_, ?_, ?_, ?_⟩
  case refine_2 => rintro (h | h) <;> exact absurd h (by decide)
  all_goals decide
theorem witness_DrawTwiceRestoresFramebuffer :
    State.reset.params.wf = true ∧ State.reset.fb.wf State.reset.params = true ∧ spriteInRange 15 State.reset ∧
    ∃ t, exec (.drw 0x0 0x1 1) State.reset = .next t ∧ t.readV 0x0 = State.reset.readV 0x0 ∧ t.readV 0x1 = State.reset.readV 0x1 :=
  ⟨by decide, by decide, .inr (by decide), _, rfl, by decide, by decide⟩
theorem witness_OnlyDrawTouchesFramebuffer :
    (∀ x y n, Instr.jp 0x202 ≠ .drw x y n) ∧ exec (.jp 0x202) State.reset = .next (State.reset.jumpTo 0x202) :=
  ⟨nofun, rfl⟩
/-- The invariant holds at reset and in a faulted state, and a step from reset answers. -/
theorem witness_StepKeepsInvariant :
    State.reset.Inv ∧ (State.reset.takeDecodeError 0).Inv ∧ step State.reset = .next (State.reset.takeDecodeError 0) :=
  ⟨⟨by decide, by decide, by decide, by decide⟩, ⟨by decide, by decide, by decide, by decide⟩, rfl⟩
theorem witness_ResetMeetsInvariant : (Params.mk 8 15 1).wf = true ∧ Framebuffer.wf [(7, 14)] (Params.mk 8 15 1) = true := by decide
theorem witness_HostMovesKeepInvariant :
    (Session.start {} []).state.Inv ∧ ((Session.start {} []).move (.load [0x12, 0x00])).isSome = true ∧
    ((Session.start {} []).move .reset).isSome = true ∧ ((Session.mk State.reset .booted).move .runBatch).isSome = true :=
  ⟨⟨by decide, by decide, by decide, by decide⟩, by decide, by decide, by decide⟩
theorem witness_JumpSetsPc : (0xFFF : BitVec 12) = 0xFFF ∧ decodeWord 0x1FFF = .ok (.jp 0xFFF) := by decide
/-- The premise "X is not 0xF" of the statements of family 0x8. -/
theorem witness_alu_destination : (0x0 : Reg) ≠ 0xF ∧ (0xE : Reg) ≠ 0xF := by decide
theorem witness_ResetValues : State.reset.params = {} ∧ State.reset.fb = [] := by decide

end Sys2Proof.Tests
end

section
/-! The family of 20_memory.md: what a fetch answers (R62), and which accesses leave memory (R53). -/

namespace Sys2Proof

/-- The big-endian word of rule R50 in the shift and OR of rule R62. -/
theorem wordOfBytes_eq_shiftLeft_or (hi lo : Byte) :
    wordOfBytes hi lo = (hi.setWidth 16 <<< 8) ||| lo.setWidth 16 := by
  simp only [wordOfBytes, BitVec.append_def, BitVec.shiftLeftZeroExtend_eq, BitVec.setWidth'_eq]

end Sys2Proof

namespace Sys2Proof.Machine

theorem Memory.readByte_of_lt (m : Memory) {a : Nat} (h : a < 4096) : m.readByte a = some (m.peek a) :=
  if_pos h

theorem fetch_of_ge {s : State} (h : 4095 ≤ s.pc.toNat) : fetch s = .outside (max s.pc.toNat 4096) := by
  rcases fetch_cases s with ⟨-, hf⟩ | ⟨hpc, -⟩
  · exact hf
  · omega

theorem fetch_of_lt {s : State} (h : s.pc.toNat < 4095) :
    fetch s = .ok (wordOfBytes (s.mem.peek s.pc.toNat) (s.mem.peek (s.pc.toNat + 1))) := by
  rcases fetch_cases s with ⟨hpc, -⟩ | ⟨-, hf⟩
  · omega
  · exact hf

theorem fetch_outside_iff (s : State) : (∃ a, fetch s = .outside a) ↔ 4095 ≤ s.pc.toNat := by
  rcases fetch_cases s with ⟨hpc, hf⟩ | ⟨hpc, hf⟩
  · exact iff_of_true ⟨_, hf⟩ hpc
  · exact iff_of_false (by simp [hf]) (by omega)

/-- The fetch is the first action of a running unit's step: when it fails, nothing else happens (R62, R101). -/
theorem step_of_fetch_outside {s : State} (hr : s.run = .running) {a : Nat} (hf : fetch s = .outside a) :
    step s = .next (s.takeAddressError a) := by
  simp [step, hr, hf]

/-- A draw enters AddressError exactly when it has a row above 4095: the draw that completes moves pc, and fault entry leaves
it (R185). -/
theorem exec_drw_addressError_iff (x y : Reg) (n : Nat) (s : State) :
    exec (.drw x y n) s = .next (s.takeAddressError (max s.index.toNat 4096)) ↔
      1 ≤ n ∧ 4095 < s.index.toNat + n - 1 := by
  show execDrw x y n s = _ ↔ _
  rcases execDrw_cases x y n s with ⟨hfault, hn, hout⟩ | ⟨hin, hdone⟩
  · exact iff_of_true hfault ⟨hn, by omega⟩
  · refine iff_of_false (fun heq => ?_) (by omega)
    rw [hdone, Host.Outcome.next.injEq] at heq
    have hpc : s.pc + 2 = s.pc := congrArg State.pc heq
    bv_omega

/-- Settles O5, from the two answers of a fetch and the step that a failed one decides. -/
theorem fetchIsBigEndianInRange : Obligations.FetchIsBigEndianInRange := by
  refine fun s => ⟨fetch_of_ge, fun hpc => ?_, fun hr _ => step_of_fetch_outside hr⟩
  refine ⟨_, _, s.mem.readByte_of_lt (by omega), s.mem.readByte_of_lt (by omega), ?_⟩
  rw [fetch_of_lt hpc, wordOfBytes_eq_shiftLeft_or]

/-- Settles O6, access by access: the fetch, then the draw. -/
theorem accessesStayInMemory : Obligations.AccessesStayInMemory :=
  fun s => ⟨fetch_outside_iff s, fun x y n => exec_drw_addressError_iff x y n s⟩

end Sys2Proof.Machine
end

section
/-! The family of 30_encoding.md: the decoder's fields are the masks and shifts of R82, its answers the case table of R90, and
the jump to its own address of R92 changes nothing. -/

namespace Sys2Proof

/-! ## The masks and shifts of R82 are the decoder's fields -/

/-- A mask of `len` ones above bit `lo`, shifted down, leaves the field of those bits. -/
theorem shiftedMask_toNat {lo len : Nat} {mask : Word} (hmask : (mask >>> lo).toNat = 2 ^ len - 1) (w : Word) :
    ((w &&& mask) >>> lo).toNat = (w.extractLsb' lo len).toNat := by
  rw [BitVec.ushiftRight_and_distrib, BitVec.toNat_and, hmask, Nat.and_two_pow_sub_one_eq_mod, BitVec.toNat_ushiftRight,
    BitVec.extractLsb'_toNat]

/-- A mask of `len` low ones leaves the field of the lowest `len` bits. -/
theorem lowMask_toNat {len : Nat} {mask : Word} (hmask : mask.toNat = 2 ^ len - 1) (w : Word) :
    (w &&& mask).toNat = (w.extractLsb' 0 len).toNat := by
  rw [BitVec.toNat_and, hmask, Nat.and_two_pow_sub_one_eq_mod, BitVec.extractLsb'_toNat, Nat.shiftRight_zero]

theorem mask_family_shifted (w : Word) : ((w &&& 0xF000) >>> 12).toNat = (family w).toNat :=
  shiftedMask_toNat rfl w

theorem mask_fieldX (w : Word) : ((w &&& 0x0F00) >>> 8).toNat = (fieldX w).val :=
  shiftedMask_toNat rfl w

theorem mask_fieldY (w : Word) : ((w &&& 0x00F0) >>> 4).toNat = (fieldY w).val :=
  shiftedMask_toNat rfl w

theorem mask_fieldNN (w : Word) : (w &&& 0x00FF).toNat = (fieldNN w).toNat :=
  lowMask_toNat rfl w

theorem mask_fieldNNN (w : Word) : (w &&& 0x0FFF).toNat = (fieldNNN w).toNat :=
  lowMask_toNat rfl w

theorem mask_fieldN (w : Word) : (w &&& 0x000F).toNat = (fieldN w).toNat :=
  lowMask_toNat rfl w

/-- Settles O3: the masks of R82 are the decoder's fields, and then the table of R90 is the decoder's answers, case by case. -/
theorem decodeFollowsOpcodeMap : Obligations.DecodeFollowsOpcodeMap := by
  intro w x y nn nnn n hx hy hnn hnnn hn
  obtain rfl := Fin.ext (hx.trans (mask_fieldX w))
  obtain rfl := Fin.ext (hy.trans (mask_fieldY w))
  obtain rfl := BitVec.eq_of_toNat_eq (hnn.trans (mask_fieldNN w))
  obtain rfl := BitVec.eq_of_toNat_eq (hnnn.trans (mask_fieldNNN w))
  obtain rfl := hn.trans (mask_fieldN w)
  rw [mask_family_shifted]
  rcases decodeWord_cases w with
    ⟨hf, hd⟩ | ⟨hf, hd⟩ | ⟨hf, hd⟩ | ⟨hf, hd⟩ | ⟨hf, hd⟩ | ⟨hf, hd⟩ | ⟨hf, hd⟩
  -- family 0x8: the inner table is `decodeAlu`
  case inr.inr.inr.inr.inl => rw [hd, hf]; rfl
  -- a family of no row falls through the outer table
  case inr.inr.inr.inr.inr.inr => rw [hd]; split <;> simp_all
  all_goals simp only [hd, hf]

/-! ## The word of a jump -/

/-- The decoder reads a jump's word back as that jump (R81, R90). -/
theorem decodeWord_encodeWord_jp (nnn : BitVec 12) : decodeWord (encodeWord (.jp nnn)) = .ok (.jp nnn) := by
  simp [decodeWord, encodeWord]

end Sys2Proof

namespace Sys2Proof.Machine

/-! ## A step that leaves the state as it is -/

/-- A running unit whose fetched word decodes executes the instruction it decodes to (R101). -/
theorem step_of_decodes {s : State} {w : Word} {i : Instr} (hr : s.run = .running) (hf : fetch s = .ok w)
    (hd : decodeWord w = .ok i) : step s = exec i s := by
  simp [step, hr, hf, hd]

theorem State.jumpTo_self {s : State} {target : Word} (h : s.pc = target) : s.jumpTo target = s := by
  subst h; rfl

/-- A step of a running unit that leaves the state as it is completes: fault entry would clear RUN. -/
theorem specStep_of_fixed {s : State} (hr : s.run = .running) (hs : step s = .next s) :
    ∃ tr, specStep s = (s, .ok tr) := by
  rcases specStep_cases s with ⟨hfaulted, -⟩ | ⟨w, i, t, -, -, -, -, ht, -, hspec⟩ | ⟨cause, info, -, ht, -⟩
  · simp [hr] at hfaulted
  · obtain rfl : s = t := by simpa [hs] using ht
    exact ⟨_, hspec⟩
  · have heq : s = s.takeFault cause info := by simpa [hs] using ht
    rw [heq] at hr
    simp at hr

theorem runSteps_of_fixed {s : State} {tr : Trace} (hs : specStep s = (s, .ok tr)) (k : Nat) :
    (runSteps k s).state = s ∧ (runSteps k s).result = .ok := by
  induction k with
  | zero => exact ⟨rfl, rfl⟩
  | succ k ih => simpa [runSteps, hs] using ih

theorem runsSafely_of_fixed {s : State} (hr : s.run = .running) (hs : step s = .next s) (k : Nat) :
    runsSafely k s = true := by
  induction k with
  | zero => simp [runsSafely, hr]
  | succ k ih => simp [runsSafely, hr, hs, ih]

/-- Settles O18: the jump writes pc with the value it holds, so the step leaves the state as it is, and so does any number of
steps. -/
theorem jumpToSelfIsFixedPoint : Obligations.JumpToSelfIsFixedPoint := by
  intro s nnn k hr hpc hf
  have hs : step s = .next s := by
    calc step s = exec (.jp nnn) s := step_of_decodes hr hf (decodeWord_encodeWord_jp nnn)
      _ = .next (s.jumpTo (jumpTarget nnn)) := rfl
      _ = .next s := by rw [State.jumpTo_self (target := jumpTarget nnn) hpc]
  obtain ⟨tr, htr⟩ := specStep_of_fixed hr hs
  obtain ⟨hstate, hresult⟩ := runSteps_of_fixed htr k
  exact ⟨hs, hstate, hresult, runsSafely_of_fixed hr hs k⟩

end Sys2Proof.Machine
end

section
/-! The family of 40_execution_cycle.md: the pc that a completed step leaves (R102), the result and the trace record of a step
(R101, R103), and the batch as a number of steps that may be split anywhere (R105). -/

namespace Sys2Proof.Machine

/-! ## A completed step -/

/-- An instruction that leaves the unit running completed: fault entry clears RUN (R185). -/
theorem completed_of_exec {i : Instr} {s t : State} (he : exec i s = .next t) (ht : t.run = .running) : Completed i s t := by
  rcases exec_cases i s with ⟨u, hu, hc⟩ | ⟨x, y, n, -, -, -, hu⟩
  · obtain rfl : u = t := by simpa [hu] using he
    exact hc
  · obtain rfl : s.takeAddressError (max s.index.toNat 4096) = t := by simpa [hu] using he
    simp at ht

theorem pc_lt_of_fetch {s : State} {w : Word} (hf : fetch s = .ok w) : s.pc.toNat < 4095 := by
  by_contra hpc
  simp [fetch_of_ge (Nat.le_of_not_lt hpc)] at hf

/-- Settles O14: a successful fetch has pc below 4095, so neither pc + 2 nor pc + 4 wraps. -/
theorem pcPostcondition : Obligations.PcPostcondition := by
  intro s t w i hr hf hd hs ht
  have hpc : s.pc.toNat < 4095 := pc_lt_of_fetch hf
  rw [step_of_decodes hr hf hd] at hs
  rw [(completed_of_exec hs ht).pc]
  cases i with
  | jp nnn => simp [pcAfter, jumpTarget]; omega
  | se x nn => simp only [pcAfter]; split <;> bv_omega
  | _ => simp only [pcAfter]; bv_omega

/-! ## The result of a step and its record -/

theorem specStep_of_halted {s : State} (hr : s.run = .faulted) : specStep s = (s, .halted) := by
  simp [specStep, step, hr]

/-- A running unit whose fetched word is no instruction takes DecodeError (R101, R182). -/
theorem step_of_rejects {s : State} {w : Word} {r : DecodeReject} (hr : s.run = .running) (hf : fetch s = .ok w)
    (hd : decodeWord w = .reject r) : step s = .next (s.takeDecodeError w) := by
  simp [step, hr, hf, hd]

/-- A step that leaves RUN clear reports the FAULT record it left. -/
theorem specStep_of_faults {s t : State} (hs : step s = .next t) (ht : t.run = .faulted) :
    specStep s = (t, .fault t.fault) := by
  simp [specStep, stepReport, hs, ht]

/-- A step that leaves the unit running returns Ok with the record of rule R103. -/
theorem specStep_of_completes {s t : State} {w : Word} (hs : step s = .next t) (ht : t.run = .running)
    (hf : fetch s = .ok w) : specStep s = (t, .ok { instr := w, v := t.v, pc := t.pc }) := by
  simp [specStep, stepReport, hs, ht, hf]

/-- Only a step that fetched leaves the unit running. -/
theorem fetch_of_completes {s t : State} (hr : s.run = .running) (hs : step s = .next t) (ht : t.run = .running) :
    ∃ w, fetch s = .ok w := by
  cases hf : fetch s with
  | ok w => exact ⟨w, rfl⟩
  | outside a =>
    obtain rfl : s.takeAddressError a = t := by simpa [step_of_fetch_outside hr hf] using hs
    simp at ht

/-- What a result of Ok says: the step that was taken, and its record. -/
theorem specStep_ok {s t : State} {tr : Trace} (h : specStep s = (t, .ok tr)) :
    step s = .next t ∧ fetch s = .ok tr.instr ∧ tr.v = t.v ∧ tr.pc = t.pc := by
  rcases specStep_cases s with ⟨-, hspec⟩ | ⟨w, i, u, -, hf, -, -, hs, -, hspec⟩ | ⟨cause, info, -, -, hspec⟩
  · simp [hspec] at h
  · rw [hspec, Prod.mk.injEq, StepResult.ok.injEq] at h
    obtain ⟨rfl, rfl⟩ := h
    exact ⟨hs, hf, rfl, rfl⟩
  · simp [hspec] at h

theorem specStep_halted {s t : State} (h : specStep s = (t, .halted)) : t = s := by
  rcases specStep_cases s with ⟨-, hspec⟩ | ⟨w, i, u, -, -, -, -, -, -, hspec⟩ | ⟨cause, info, -, -, hspec⟩
  · simpa [hspec] using h.symm
  · simp [hspec] at h
  · simp [hspec] at h

/-! ## One more step of a run -/

section
variable {s t : State}

theorem runSteps_succ_of_ok {tr : Trace} (h : specStep s = (t, .ok tr)) (k : Nat) :
    runSteps (k + 1) s =
      { runSteps k t with traces := tr :: (runSteps k t).traces, calls := stepCalls s ++ (runSteps k t).calls } := by
  simp [runSteps, h]

theorem runSteps_succ_of_fault {f : FaultRecord} (h : specStep s = (t, .fault f)) (k : Nat) :
    runSteps (k + 1) s = { state := t, result := .fault f, traces := [], calls := [] } := by
  simp [runSteps, h]

theorem runSteps_succ_of_halted (h : specStep s = (t, .halted)) (k : Nat) :
    runSteps (k + 1) s = { state := t, result := .halted, traces := [], calls := [] } := by
  simp [runSteps, h]

end

/-- Settles O15, clause by clause: the branches of R101, then the record of R103. -/
theorem traceRecordContents : Obligations.TraceRecordContents := by
  intro s
  refine ⟨specStep_of_halted, fun a hr hf => ?_, fun w r hr hf hd => ?_, fun w i hr hf hd => ?_, fun t hr hs ht => ?_,
    fun t tr h => ?_, fun t f h => ?_, fun t h => ?_⟩
  · exact specStep_of_faults (step_of_fetch_outside hr hf) rfl
  · exact specStep_of_faults (step_of_rejects hr hf hd) rfl
  · have hexec : step s = exec i s := step_of_decodes hr hf hd
    rcases exec_cases i s with ⟨t, he, hc⟩ | ⟨x, y, n, -, -, -, he⟩
    · have hrun : t.run = .running := hc.run.trans hr
      exact ⟨t, he, fun _ => specStep_of_completes (hexec.trans he) hrun hf, by simp [hrun]⟩
    · exact ⟨_, he, by simp, fun _ => ⟨rfl, specStep_of_faults (hexec.trans he) rfl⟩⟩
  · obtain ⟨w, hf⟩ := fetch_of_completes hr hs ht
    exact ⟨_, specStep_of_completes hs ht hf⟩
  · obtain ⟨hs, hf, hv, hpc⟩ := specStep_ok h
    rw [runSteps_succ_of_ok h]
    exact ⟨hs, hf, fun z => congrArg (·[z]) hv, hpc, rfl, rfl⟩
  · rw [runSteps_succ_of_fault h]
    exact ⟨rfl, rfl⟩
  · rw [runSteps_succ_of_halted h]
    exact ⟨rfl, specStep_halted h⟩

/-! ## Splitting a run -/

/-- What two runs, one after the other, leave and put out: the second's state and result, and the records and calls of both. -/
def Batch.andThen (b c : Batch) : Batch :=
  { c with traces := b.traces ++ c.traces, calls := b.calls ++ c.calls }

/-- A run whose first `m` steps all complete is those steps and then the rest. -/
theorem runSteps_add_of_ok {m : Nat} (n : Nat) {s : State} (h : (runSteps m s).result = .ok) :
    runSteps (m + n) s = (runSteps m s).andThen (runSteps n (runSteps m s).state) := by
  induction m generalizing s with
  | zero => simp [runSteps, Batch.andThen]
  | succ m ih =>
    rw [Nat.add_right_comm]
    rcases hspec : specStep s with ⟨t, tr | f | _⟩
    · rw [runSteps_succ_of_ok hspec] at h
      simp [runSteps_succ_of_ok hspec, ih h, Batch.andThen]
    · simp [runSteps_succ_of_fault hspec] at h
    · simp [runSteps_succ_of_halted hspec] at h

/-- After a step that is not Ok no further step runs. -/
theorem runSteps_add_of_not_ok {m : Nat} (n : Nat) {s : State} (h : (runSteps m s).result ≠ .ok) :
    runSteps (m + n) s = runSteps m s := by
  induction m generalizing s with
  | zero => exact absurd rfl h
  | succ m ih =>
    rw [Nat.add_right_comm]
    rcases hspec : specStep s with ⟨t, tr | f | _⟩
    · rw [runSteps_succ_of_ok hspec] at h
      simp [runSteps_succ_of_ok hspec, ih h]
    · simp [runSteps_succ_of_fault hspec]
    · simp [runSteps_succ_of_halted hspec]

/-! ## The instructions per frame -/

/-- The same unit with another IPF (R7). -/
def State.withIpf (s : State) (j : Nat) : State := { s with params := { s.params with ipf := j } }

theorem fetch_withIpf (s : State) (j : Nat) : fetch (s.withIpf j) = fetch s := rfl

theorem spriteRows_withIpf (n : Nat) (s : State) (j : Nat) : spriteRows n (s.withIpf j) = spriteRows n s := rfl

/-- No instruction reads or writes IPF: a draw reads the framebuffer's size and no other parameter (R154). -/
theorem exec_withIpf {i : Instr} {s t : State} (j : Nat) (he : exec i s = .next t) :
    exec i (s.withIpf j) = .next (t.withIpf j) := by
  cases i with
  | drw x y n =>
    simp only [exec, execDrw, spriteRows_withIpf] at he ⊢
    cases hrows : spriteRows n s with
    | outside | ok =>
      simp only [hrows] at he ⊢
      obtain rfl := Host.Outcome.next.inj he
      rfl
  | _ => obtain rfl := Host.Outcome.next.inj he; rfl

/-- A step neither reads nor writes IPF. -/
theorem step_withIpf {s t : State} (j : Nat) (hs : step s = .next t) : step (s.withIpf j) = .next (t.withIpf j) := by
  rcases step_cases s with ⟨-, h⟩ | ⟨hr, hpc, h⟩ | ⟨w, r, hr, -, hf, hd, h⟩ | ⟨w, i, hr, -, hf, hd, h⟩
  · simp [h] at hs
  · obtain rfl := Host.Outcome.next.inj (h.symm.trans hs)
    exact step_of_fetch_outside (s := s.withIpf j) hr (fetch_of_ge hpc)
  · obtain rfl := Host.Outcome.next.inj (h.symm.trans hs)
    exact step_of_rejects (s := s.withIpf j) hr hf hd
  · rw [step_of_decodes (s := s.withIpf j) hr hf hd]
    exact exec_withIpf j (h.symm.trans hs)

theorem specStep_withIpf (s : State) (j : Nat) :
    specStep (s.withIpf j) = ((specStep s).1.withIpf j, (specStep s).2) := by
  rcases specStep_cases s with ⟨hr, h⟩ | ⟨w, i, t, hr, hf, -, -, hs, hc, h⟩ | ⟨cause, info, hr, hs, h⟩
  · rw [h]; exact specStep_of_halted (s := s.withIpf j) hr
  · rw [h]; exact specStep_of_completes (step_withIpf j hs) (hc.run.trans hr) hf
  · rw [h]; exact specStep_of_faults (step_withIpf j hs) rfl

theorem stepCalls_withIpf (s : State) (j : Nat) : stepCalls (s.withIpf j) = stepCalls s := rfl

/-- A run of the same unit with another IPF ends in the same state with that IPF, and puts out the same. -/
theorem runSteps_withIpf (j k : Nat) (s : State) :
    runSteps k (s.withIpf j) = { runSteps k s with state := (runSteps k s).state.withIpf j } := by
  induction k generalizing s with
  | zero => rfl
  | succ k ih =>
    have hipf := specStep_withIpf s j
    rcases hspec : specStep s with ⟨t, tr | f | _⟩ <;> rw [hspec] at hipf
    · rw [runSteps_succ_of_ok hipf, runSteps_succ_of_ok hspec, ih, stepCalls_withIpf]
    · rw [runSteps_succ_of_fault hipf, runSteps_succ_of_fault hspec]
    · rw [runSteps_succ_of_halted hipf, runSteps_succ_of_halted hspec]

/-! ## The batch -/

/-- A run of one step is that step with its result. -/
theorem runSteps_one (s : State) :
    (runSteps 1 s).state = (specStep s).1 ∧
    (runSteps 1 s).result =
      match (specStep s).2 with
      | .ok _ => .ok
      | .fault f => .fault f
      | .halted => .halted := by
  rcases hspec : specStep s with ⟨t, tr | f | _⟩
  · rw [runSteps_succ_of_ok hspec]; exact ⟨rfl, rfl⟩
  · rw [runSteps_succ_of_fault hspec]; exact ⟨rfl, rfl⟩
  · rw [runSteps_succ_of_halted hspec]; exact ⟨rfl, rfl⟩

/-- Settles O16, from the split of a run at any step and the run of the same unit with another IPF. -/
theorem batchSplitsAnywhere : Obligations.BatchSplitsAnywhere := by
  intro m n s
  obtain ⟨hstate, hresult⟩ := runSteps_one s
  refine ⟨fun hok => ?_, fun hnot => ?_, hstate, hresult, rfl, fun j k => ?_⟩
  · rw [runSteps_add_of_ok n hok]
    exact ⟨rfl, rfl, rfl⟩
  · rw [runSteps_add_of_not_ok n hnot]
    exact ⟨rfl, rfl, rfl⟩
  · change (runSteps k (s.withIpf j)).state = _ ∧ (runSteps k (s.withIpf j)).result = _ ∧
      (runSteps k (s.withIpf j)).traces = _
    rw [runSteps_withIpf]
    exact ⟨rfl, rfl, rfl⟩

end Sys2Proof.Machine
end

section
/-! The family of 41_control_transfer.md: the words of a row that fixes the family alone, what an instruction that does not draw
leaves unchanged, and with these the jump (R110) and the skip (R111). -/

namespace Sys2Proof

/-! ## The words that decode to an instruction of a family -/

/-- The second level of the dispatch answers only instructions of family 0x8 (R85). -/
theorem family_encodeWord_of_decodeAlu {w : Word} {i : Instr} (hd : decodeAlu w = .ok i) :
    (family (encodeWord i)).toNat = 8 := by
  rcases decodeAlu_cases w with
    ⟨-, h⟩ | ⟨-, h⟩ | ⟨-, h⟩ | ⟨-, h⟩ | ⟨-, h⟩ | ⟨-, h⟩ | ⟨-, h⟩ | ⟨-, h⟩ | ⟨-, h⟩ | ⟨-, h⟩
  all_goals cases h.symm.trans hd <;> simp [encodeWord]

/-- A word that decodes is of the family of the instruction it decodes to (R84, R86). -/
theorem family_of_decodes {w : Word} {i : Instr} (hd : decodeWord w = .ok i) :
    (family w).toNat = (family (encodeWord i)).toNat := by
  rcases decodeWord_cases w with
    ⟨hf, h⟩ | ⟨hf, h⟩ | ⟨hf, h⟩ | ⟨hf, h⟩ | ⟨hf, h⟩ | ⟨hf, h⟩ | ⟨-, h⟩
  -- family 0x8: the second level answers
  case inr.inr.inr.inr.inl => rw [hf, family_encodeWord_of_decodeAlu (h.symm.trans hd)]
  all_goals cases h.symm.trans hd <;> simp [hf, encodeWord]

/-- When a family's words all decode to one form `d` of their fields, a word decodes to an instruction of that family iff it
matches the family's row and the fields are the instruction's. -/
theorem decodeWord_eq_ok_iff_of_family {w : Word} {i d : Instr} {k : Nat} (hi : (family (encodeWord i)).toNat = k)
    (hd : (family w).toNat = k → decodeWord w = .ok d) :
    decodeWord w = .ok i ↔ w &&& 0xF000 = BitVec.ofNat 16 (k * 4096) ∧ d = i := by
  rw [mask_family_iff w k (hi ▸ family_lt _)]
  constructor
  · intro h
    have hf : (family w).toNat = k := (family_of_decodes h).trans hi
    exact ⟨hf, Decoded.ok.inj ((hd hf).symm.trans h)⟩
  · rintro ⟨hf, rfl⟩
    exact hd hf

end Sys2Proof

namespace Sys2Proof.Machine

/-! ## The fields of R82 in the bit ranges of R9 -/

theorem fieldNNN_eq_bitsAt (w : Word) : (fieldNNN w).toNat = bitsAt w 11 0 := by
  simp [fieldNNN_toNat, bitsAt]

theorem fieldX_eq_bitsAt (w : Word) : (fieldX w).val = bitsAt w 11 8 := by
  simp [fieldX_val, bitsAt]

theorem fieldNN_eq_bitsAt (w : Word) : (fieldNN w).toNat = bitsAt w 7 0 := by
  simp [fieldNN_toNat, bitsAt]

theorem decodeWord_eq_jp_iff (w : Word) (nnn : BitVec 12) :
    decodeWord w = .ok (.jp nnn) ↔ w &&& 0xF000 = 0x1000 ∧ nnn.toNat = bitsAt w 11 0 := by
  rw [decodeWord_eq_ok_iff_of_family (k := 1) (d := .jp (fieldNNN w)) (by simp [encodeWord])
      (fun hf => by simp [decodeWord, hf]),
    Instr.jp.injEq, ← BitVec.toNat_inj (x := fieldNNN w), fieldNNN_eq_bitsAt, eq_comm (a := bitsAt w 11 0)]
  rfl

theorem decodeWord_eq_se_iff (w : Word) (x : Reg) (nn : Byte) :
    decodeWord w = .ok (.se x nn) ↔
      w &&& 0xF000 = 0x3000 ∧ x.val = bitsAt w 11 8 ∧ nn.toNat = bitsAt w 7 0 := by
  rw [decodeWord_eq_ok_iff_of_family (k := 3) (d := .se (fieldX w) (fieldNN w)) (by simp [encodeWord])
      (fun hf => by simp [decodeWord, hf]),
    Instr.se.injEq, Fin.ext_iff, ← BitVec.toNat_inj (x := fieldNN w), fieldX_eq_bitsAt,
    fieldNN_eq_bitsAt, eq_comm (a := bitsAt w 11 8), eq_comm (a := bitsAt w 7 0)]
  rfl

/-! ## An instruction that does not draw -/

/-- Only a draw can enter a fault, so any other instruction completes. -/
theorem completed_of_not_draw {i : Instr} {s t : State} (he : exec i s = .next t) (hi : isDraw i = false) :
    Completed i s t := by
  rcases exec_cases i s with ⟨u, hu, hc⟩ | ⟨x, y, n, rfl, -⟩
  · obtain rfl : u = t := by simpa [hu] using he
    exact hc
  · simp [isDraw] at hi

/-- The frame of a completed instruction that does not draw, once the registers outside `written` are known to stay. -/
theorem Completed.keepsButRegs {i : Instr} {s t : State} {written : List Reg} (hc : Completed i s t)
    (hi : isDraw i = false) (hregs : ∀ z, z ∉ written → t.readV z = s.readV z) : KeepsButRegs written s t where
  regs := hregs
  index := hc.index
  mem a := by rw [hc.mem]
  run := hc.run
  fault := hc.fault
  params := hc.params
  fb := hc.fb hi

/-! ## The jump and the skip -/

/-- The target of a jump is zero-extended (R83). -/
theorem jumpTarget_toNat (nnn : BitVec 12) : (jumpTarget nnn).toNat = nnn.toNat := by
  simp only [jumpTarget, BitVec.toNat_setWidth]
  omega

/-- Settles O23: the jump writes pc alone, and at pc = 4095 the second byte of the fetch is outside memory (R62). -/
theorem jumpSetsPc : Obligations.JumpSetsPc := by
  refine ⟨decodeWord_eq_jp_iff, fun nnn s => ?_⟩
  have he : exec (.jp nnn) s = .next (s.jumpTo (jumpTarget nnn)) := rfl
  have hc := completed_of_not_draw he rfl
  have hpc : (s.jumpTo (jumpTarget nnn)).pc.toNat = nnn.toNat := jumpTarget_toNat nnn
  refine ⟨_, he, hpc, hc.keepsButRegs rfl (fun z _ => s.jumpTo_readV _ z), fun hlast => ?_⟩
  have hpc' : (s.jumpTo (jumpTarget nnn)).pc.toNat = 4095 := by rw [hpc, hlast]; rfl
  rw [fetch_of_ge hpc'.ge, hpc']
  rfl

/-- Settles O24: the skip adds 4 or 2 to pc and reads V[X] alone, so with another memory it does the same. -/
theorem skipIfEqual : Obligations.SkipIfEqual := by
  refine ⟨decodeWord_eq_se_iff, fun x nn s => ?_⟩
  have he : exec (.se x nn) s = .next (s.advancePc (if s.readV x = nn then 4 else 2)) := rfl
  have hc := completed_of_not_draw he rfl
  refine ⟨_, he, ?_, hc.keepsButRegs rfl (fun z _ => s.advancePc_readV _ z), fun m => rfl⟩
  simp only [hc.pc, pcAfter, BitVec.toNat_inj]
  split <;> rfl

end Sys2Proof.Machine
end

section
/-! The family of 42_immediate.md: the words of a row of format XNN, what one register write and a step of pc by 2 leave, and with
these the two immediate instructions (R120, R121). -/

namespace Sys2Proof.Machine

/-- When a family's words all decode to `form` of the fields X and NN, a word decodes to `form x nn` iff it matches the family's row
and its fields are x and nn (R81, R82). -/
theorem decodeWord_eq_formXNN_iff {form : Reg → Byte → Instr} {w : Word} {x : Reg} {nn : Byte} {k : Nat}
    (hinj : form (fieldX w) (fieldNN w) = form x nn ↔ fieldX w = x ∧ fieldNN w = nn)
    (hfamily : (family (encodeWord (form x nn))).toNat = k)
    (hd : (family w).toNat = k → decodeWord w = .ok (form (fieldX w) (fieldNN w))) :
    decodeWord w = .ok (form x nn) ↔
      w &&& 0xF000 = BitVec.ofNat 16 (k * 4096) ∧ x.val = bitsAt w 11 8 ∧ nn.toNat = bitsAt w 7 0 := by
  rw [decodeWord_eq_ok_iff_of_family hfamily hd, hinj, ← fieldX_eq_bitsAt, ← fieldNN_eq_bitsAt, Fin.val_inj, BitVec.toNat_inj,
    eq_comm (a := x), eq_comm (a := nn)]

theorem decodeWord_eq_ldi_iff (w : Word) (x : Reg) (nn : Byte) :
    decodeWord w = .ok (.ldi x nn) ↔
      w &&& 0xF000 = 0x6000 ∧ x.val = bitsAt w 11 8 ∧ nn.toNat = bitsAt w 7 0 :=
  decodeWord_eq_formXNN_iff (form := .ldi) (k := 6) (by rw [Instr.ldi.injEq]) (by simp [encodeWord])
    (fun hf => by simp [decodeWord, hf])

theorem decodeWord_eq_addi_iff (w : Word) (x : Reg) (nn : Byte) :
    decodeWord w = .ok (.addi x nn) ↔
      w &&& 0xF000 = 0x7000 ∧ x.val = bitsAt w 11 8 ∧ nn.toNat = bitsAt w 7 0 :=
  decodeWord_eq_formXNN_iff (form := .addi) (k := 7) (by rw [Instr.addi.injEq]) (by simp [encodeWord])
    (fun hf => by simp [decodeWord, hf])

/-- An instruction that writes V[X] once and steps pc by 2 keeps everything else: V[0xF] too, unless X = 0xF. -/
theorem keepsButRegs_writeV_advancePc (s : State) (x : Reg) (b : Byte) :
    KeepsButRegs [x] s ((s.writeV x b).advancePc 2) where
  regs _ hz := s.writeV_readV_other b (List.ne_of_not_mem_cons hz)
  index := rfl
  mem _ := rfl
  run := rfl
  fault := rfl
  params := rfl
  fb := rfl

/-- Settles O25: the load is one write of NN to V[X], 0xF no exception. -/
theorem loadImmediate : Obligations.LoadImmediate :=
  ⟨decodeWord_eq_ldi_iff, fun x nn s =>
    ⟨(s.writeV x nn).advancePc 2, rfl, s.writeV_readV_same x nn, rfl, keepsButRegs_writeV_advancePc s x nn⟩⟩

/-- Settles O26: the sum of bytes wraps at 256, and V[X] is the one register written, so no carry is recorded. -/
theorem addImmediateNoFlag : Obligations.AddImmediateNoFlag := by
  refine ⟨decodeWord_eq_addi_iff, fun x nn s => ?_⟩
  have hread : ((s.writeV x (s.readV x + nn)).advancePc 2).readV x = s.readV x + nn := s.writeV_readV_same x _
  refine ⟨_, rfl, ?_, rfl, keepsButRegs_writeV_advancePc s x _⟩
  rw [hread, BitVec.toNat_add]

end Sys2Proof.Machine
end

section
/-! The family of 43_alu.md: the words of a row that fixes the family and the low nibble, what the two write orders of rule R130
leave, and with these the nine instructions of family 0x8 (R131 to R139). -/

namespace Sys2Proof

/-! ## A word decodes to the instruction of family 0x8 whose word it is -/

/-- The second level of the dispatch loses no bit of a word of family 0x8, the ignored Y of R87 included. -/
theorem encodeWord_of_decodeAlu {w : Word} {i : Instr} (hf : family w = 8) (hd : decodeAlu w = .ok i) :
    encodeWord i = w := by
  have hw : formatXYN 8 (fieldX w) (fieldY w) (BitVec.ofNat 4 (fieldN w).toNat) = w := by
    rw [BitVec.ofNat_toNat, BitVec.setWidth_eq, ← hf, formatXYN_fields]
  rcases decodeAlu_cases w with
    ⟨hn, h⟩ | ⟨hn, h⟩ | ⟨hn, h⟩ | ⟨hn, h⟩ | ⟨hn, h⟩ | ⟨hn, h⟩ | ⟨hn, h⟩ | ⟨hn, h⟩ | ⟨hn, h⟩ | ⟨-, h⟩
  all_goals cases h.symm.trans hd <;> (rw [hn] at hw; exact hw)

/-- The decoder reads the word of an instruction of family 0x8 back as that instruction. -/
theorem decodeWord_encodeWord_of_family_alu {i : Instr} (hi : family (encodeWord i) = 8) :
    decodeWord (encodeWord i) = .ok i := by
  cases i
  case jp | se | ldi | addi | drw => simp [encodeWord] at hi
  all_goals simp [encodeWord, decodeWord, decodeAlu]

theorem decodeWord_eq_ok_iff_of_family_alu {i : Instr} (hi : family (encodeWord i) = 8) (w : Word) :
    decodeWord w = .ok i ↔ encodeWord i = w := by
  constructor
  · intro hd
    have hf : family w = 8 := BitVec.eq_of_toNat_eq ((family_of_decodes hd).trans (congrArg BitVec.toNat hi))
    have halu : decodeWord w = decodeAlu w := by simp [decodeWord, hf]
    exact encodeWord_of_decodeAlu hf (halu.symm.trans hd)
  · rintro rfl
    exact decodeWord_encodeWord_of_family_alu hi

end Sys2Proof

namespace Sys2Proof.Machine

theorem fieldY_eq_bitsAt (w : Word) : (fieldY w).val = bitsAt w 7 4 := by
  simp [fieldY_val, bitsAt]

/-- A word is that of format XY or XYN with the given fields iff the mask 0xF00F leaves its family and low nibble, and its bits
11 to 8 and 7 to 4 are X and Y (R81, R82). -/
theorem formatXYN_eq_iff (fam n : BitVec 4) (x y : Reg) (w : Word) :
    formatXYN fam x y n = w ↔
      w &&& 0xF00F = BitVec.ofNat 16 (fam.toNat * 4096 + n.toNat) ∧ x.val = bitsAt w 11 8 ∧ y.val = bitsAt w 7 4 := by
  rw [mask_family_low_iff w _ _ fam.isLt n.isLt, BitVec.toNat_inj, BitVec.toNat_inj, ← fieldX_eq_bitsAt, ← fieldY_eq_bitsAt,
    Fin.val_inj, Fin.val_inj]
  constructor
  · rintro rfl
    simp
  · rintro ⟨⟨rfl, rfl⟩, rfl, rfl⟩
    exact formatXYN_fields w

/-- A word decodes to an instruction of family 0x8 iff it matches the row of its sub-operation `n` and the fields are its X and Y
(R85, R86). -/
theorem decodeWord_eq_alu_iff {i : Instr} {x y : Reg} (n : BitVec 4) (hi : encodeWord i = formatXYN 8 x y n) (w : Word) :
    decodeWord w = .ok i ↔
      w &&& 0xF00F = BitVec.ofNat 16 (8 * 4096 + n.toNat) ∧ x.val = bitsAt w 11 8 ∧ y.val = bitsAt w 7 4 := by
  have hfamily : family (encodeWord i) = 8 := by rw [hi, family_formatXYN]
  rw [decodeWord_eq_ok_iff_of_family_alu hfamily, hi]
  exact formatXYN_eq_iff 8 n x y w

/-! ## The state each instruction completes in -/

section
variable (x y : Reg) (s : State)

theorem exec_mov : exec (.mov x y) s = .next ((s.writeV x (s.readV y)).advancePc 2) := rfl

theorem exec_or : exec (.or x y) s = .next (s.resultThenFlag x (s.readV x ||| s.readV y) 0) := rfl

theorem exec_and : exec (.and x y) s = .next (s.resultThenFlag x (s.readV x &&& s.readV y) 0) := rfl

theorem exec_xor : exec (.xor x y) s = .next (s.resultThenFlag x (s.readV x ^^^ s.readV y) 0) := rfl

theorem exec_add : exec (.add x y) s =
    .next (s.resultThenFlag x (lowByte (addWide (s.readV x) (s.readV y))) (ninthBit (addWide (s.readV x) (s.readV y)))) := rfl

theorem exec_sub : exec (.sub x y) s =
    .next (s.resultThenFlag x (lowByte (subWide (s.readV x) (s.readV y))) (ninthBit (subWide (s.readV x) (s.readV y)))) := rfl

theorem exec_subn : exec (.subn x y) s =
    .next (s.resultThenFlag x (lowByte (subWide (s.readV y) (s.readV x))) (ninthBit (subWide (s.readV y) (s.readV x)))) := rfl

theorem exec_shr : exec (.shr x y) s = .next (s.flagThenResult x (s.readV x >>> 1) (shiftedOutLow (s.readV x))) := rfl

theorem exec_shl : exec (.shl x y) s = .next (s.flagThenResult x (s.readV x <<< 1) (shiftedOutHigh (s.readV x))) := rfl

end

/-! ## What the two write orders of R130 leave -/

namespace State

variable (s : State) (x : Reg) (result flag : Byte)

@[simp] theorem resultThenFlag_readV_flag : (s.resultThenFlag x result flag).readV 0xF = flag := by
  simp [resultThenFlag_readV]

theorem resultThenFlag_readV_dest {x : Reg} (hx : x ≠ 0xF) : (s.resultThenFlag x result flag).readV x = result := by
  simp [resultThenFlag_readV, hx]

/-- Result first, flag last: only V[X] and V[0xF] change besides pc. -/
theorem resultThenFlag_keeps : KeepsButRegs [x, 0xF] s (s.resultThenFlag x result flag) where
  regs z hz := by
    obtain ⟨hx, hflag⟩ := not_or.mp (List.mem_pair.not.mp hz)
    rw [resultThenFlag_readV, if_neg hflag, if_neg hx]
  index := rfl
  mem _ := rfl
  run := rfl
  fault := rfl
  params := rfl
  fb := rfl

@[simp] theorem flagThenResult_readV_dest : (s.flagThenResult x result flag).readV x = result := by
  simp [flagThenResult_readV]

theorem flagThenResult_readV_flag {x : Reg} (hx : x ≠ 0xF) : (s.flagThenResult x result flag).readV 0xF = flag := by
  simp [flagThenResult_readV, hx.symm]

/-- Flag first, result last: only V[X] and V[0xF] change besides pc. -/
theorem flagThenResult_keeps : KeepsButRegs [x, 0xF] s (s.flagThenResult x result flag) where
  regs z hz := by
    obtain ⟨hx, hflag⟩ := not_or.mp (List.mem_pair.not.mp hz)
    rw [flagThenResult_readV, if_neg hx, if_neg hflag]
  index := rfl
  mem _ := rfl
  run := rfl
  fault := rfl
  params := rfl
  fb := rfl

end State

/-! ## The move and the logical operations -/

/-- Settles O27: the move is one write of the old V[Y] to V[X], 0xF no exception. -/
theorem moveRegister : Obligations.MoveRegister :=
  ⟨fun w _ _ => decodeWord_eq_alu_iff 0 rfl w, fun x y s =>
    ⟨_, exec_mov x y s, s.writeV_readV_same x _, rfl, keepsButRegs_writeV_advancePc s x _⟩⟩

/-- An instruction that writes a result with the bits `bit` and then 0 to V[0xF] leaves those bits in V[X] (unless X = 0xF), 0 in
V[0xF], and all else as it was. -/
theorem logic_completes {i : Instr} {x : Reg} {s : State} {result : Byte} {bit : Nat → Bool}
    (he : exec i s = .next (s.resultThenFlag x result 0)) (hbit : ∀ k, result.getLsbD k = bit k) :
    ∃ t, exec i s = .next t ∧ (x ≠ 0xF → ∀ k, (t.readV x).getLsbD k = bit k) ∧ t.readV 0xF = 0 ∧ t.pc = s.pc + 2 ∧
      KeepsButRegs [x, 0xF] s t := by
  refine ⟨_, he, fun hx k => ?_, s.resultThenFlag_readV_flag x _ _, rfl, s.resultThenFlag_keeps x _ _⟩
  rw [s.resultThenFlag_readV_dest _ _ hx, hbit]

/-- Settles O28: each operation is bitwise, and 0 is written to V[0xF] after the result. -/
theorem logicClearsFlag : Obligations.LogicClearsFlag :=
  ⟨⟨fun w _ _ => decodeWord_eq_alu_iff 1 rfl w, fun x y s => logic_completes (exec_or x y s) fun _ => BitVec.getLsbD_or⟩,
    ⟨fun w _ _ => decodeWord_eq_alu_iff 2 rfl w, fun x y s => logic_completes (exec_and x y s) fun _ => BitVec.getLsbD_and⟩,
    ⟨fun w _ _ => decodeWord_eq_alu_iff 3 rfl w, fun x y s => logic_completes (exec_xor x y s) fun _ => BitVec.getLsbD_xor⟩⟩

/-! ## Addition and the two subtractions -/

/-- Settles O29: the 9-bit sum is the sum modulo 256 and the carry, and the carry is written last. -/
theorem addSetsCarry : Obligations.AddSetsCarry := by
  refine ⟨fun w _ _ => decodeWord_eq_alu_iff 4 rfl w, fun x y s => ?_⟩
  refine ⟨_, exec_add x y s, fun hx => ?_, ?_, rfl, s.resultThenFlag_keeps x _ _⟩
  · rw [s.resultThenFlag_readV_dest _ _ hx, add_result]
  · rw [s.resultThenFlag_readV_flag, add_carry]

/-- The difference of R140 as the integer difference modulo 256. -/
theorem sub_result_int (a b : Byte) : ((lowByte (subWide a b)).toNat : Int) = ((a.toNat : Int) - (b.toNat : Int)) % 256 := by
  rw [sub_result]
  omega

/-- Settles O30: the intermediate `vx + 256 - vy` is the difference modulo 256 and the no-borrow bit, which is written last. -/
theorem subtractSetsNoBorrow : Obligations.SubtractSetsNoBorrow := by
  refine ⟨fun w _ _ => decodeWord_eq_alu_iff 5 rfl w, fun x y s => ?_⟩
  refine ⟨_, exec_sub x y s, fun hx => ?_, ?_, rfl, s.resultThenFlag_keeps x _ _⟩
  · rw [s.resultThenFlag_readV_dest _ _ hx, sub_result_int]
  · rw [s.resultThenFlag_readV_flag, sub_noBorrow]

/-- Settles O31: the intermediate `vy + 256 - vx` is the difference modulo 256 and the no-borrow bit, which is written last. -/
theorem reverseSubtractSetsNoBorrow : Obligations.ReverseSubtractSetsNoBorrow := by
  refine ⟨fun w _ _ => decodeWord_eq_alu_iff 7 rfl w, fun x y s => ?_⟩
  refine ⟨_, exec_subn x y s, fun hx => ?_, ?_, rfl, s.resultThenFlag_keeps x _ _⟩
  · rw [s.resultThenFlag_readV_dest _ _ hx, sub_result_int]
  · rw [s.resultThenFlag_readV_flag, sub_noBorrow]

/-! ## The shifts -/

/-- Settles O32: the state after the shift does not name Y, and the half of V[X] is written after the bit it loses. -/
theorem shiftRightReportsLowBit : Obligations.ShiftRightReportsLowBit := by
  refine ⟨fun w _ _ => decodeWord_eq_alu_iff 6 rfl w, fun x s => ?_⟩
  refine ⟨_, fun y => exec_shr x y s, ?_, fun hx => ?_, rfl, s.flagThenResult_keeps x _ _⟩
  · rw [s.flagThenResult_readV_dest, shr_result]
  · rw [s.flagThenResult_readV_flag _ _ hx, shr_flag]

/-- Settles O33: the state after the shift does not name Y, and the double of V[X] is written after the bit it loses. -/
theorem shiftLeftReportsHighBit : Obligations.ShiftLeftReportsHighBit := by
  refine ⟨fun w _ _ => decodeWord_eq_alu_iff 0xE rfl w, fun x s => ?_⟩
  refine ⟨_, fun y => exec_shl x y s, ?_, fun hx => ?_, rfl, s.flagThenResult_keeps x _ _⟩
  · rw [s.flagThenResult_readV_dest, shl_result]
  · rw [s.flagThenResult_readV_flag _ _ hx, shl_flag]

end Sys2Proof.Machine
end

section
/-! The family of 44_draw.md: the state a draw completes in, its closed form over the sprite as memory holds it (R150 to R157), the
draw repeated (R159), and the calls that keep the host's surface equal to the framebuffer (R158). -/

namespace Sys2Proof.Machine

theorem fieldN_eq_bitsAt (w : Word) : (fieldN w).toNat = bitsAt w 3 0 := by
  simp [fieldN_toNat, bitsAt]

/-- A row count above 15 has no word, as it is no value of the four bits of N (R82). -/
theorem decodeWord_eq_drw_iff (w : Word) (x y : Reg) (n : Nat) :
    decodeWord w = .ok (.drw x y n) ↔
      w &&& 0xF000 = 0xD000 ∧ x.val = bitsAt w 11 8 ∧ y.val = bitsAt w 7 4 ∧ n = bitsAt w 3 0 := by
  rw [decodeWord_eq_ok_iff_of_family (k := 13) (d := .drw (fieldX w) (fieldY w) (fieldN w).toNat) (by simp [encodeWord])
      (fun hf => by simp [decodeWord, hf]),
    Instr.drw.injEq, ← fieldX_eq_bitsAt, ← fieldY_eq_bitsAt, ← fieldN_eq_bitsAt, Fin.val_inj, Fin.val_inj, eq_comm (a := x),
    eq_comm (a := y), eq_comm (a := n)]
  rfl

/-! ## The flag as a register value -/

theorem flagByte_eq_zero_or_one (b : Bool) : flagByte b = 0 ∨ flagByte b = 1 := by
  cases b
  · exact .inl rfl
  · exact .inr rfl

theorem flagByte_eq_one_iff (b : Bool) : flagByte b = 1 ↔ b = true := by
  cases b <;> simp [flagByte]

/-! ## The sprite and the state a draw completes in -/

/-- The cells of a draw's sprite, in the loop's order (R151), as memory holds them from I on. -/
def drawnCells (n : Nat) (s : State) : List SpriteCell := spriteCells 0 (s.mem.peekRange s.index.toNat n)

/-- The blit of a draw whose sprite is in memory. -/
def drawnBlit (x y : Reg) (n : Nat) (s : State) : Blitted :=
  blit s.params s.fb (s.mem.peekRange s.index.toNat n) (drawOrigin x y s)

/-- The state that a draw whose sprite is in memory completes in. -/
def drawn (x y : Reg) (n : Nat) (s : State) : State :=
  ((s.withFb (drawnBlit x y n s).fb).writeV flagReg (flagByte (drawnBlit x y n s).collision)).advancePc 2

section
variable {x y : Reg} {n : Nat} {s : State}

theorem spriteRows_of_inRange (hin : spriteInRange n s) : spriteRows n s = .ok (s.mem.peekRange s.index.toNat n) := by
  rcases Memory.readRange_cases s.mem s.index.toNat n with ⟨-, hn, hout⟩ | ⟨h, -⟩
  · unfold spriteInRange at hin; omega
  · exact h

theorem spriteRows_of_not_inRange (hout : ¬ spriteInRange n s) : spriteRows n s = .outside (max s.index.toNat 4096) := by
  rcases Memory.readRange_cases s.mem s.index.toNat n with ⟨h, -⟩ | ⟨-, hin⟩
  · exact h
  · exact absurd hin hout

theorem exec_drw_of_inRange (hin : spriteInRange n s) : exec (.drw x y n) s = .next (drawn x y n s) := by
  simp only [exec, execDrw, spriteRows_of_inRange hin]
  rfl

theorem exec_drw_of_not_inRange (hout : ¬ spriteInRange n s) :
    exec (.drw x y n) s = .next (s.takeAddressError (max s.index.toNat 4096)) := by
  simp only [exec, execDrw, spriteRows_of_not_inRange hout]

@[simp] theorem drawn_fb : (drawn x y n s).fb = (drawnBlit x y n s).fb := rfl

@[simp] theorem drawn_readV_flag : (drawn x y n s).readV 0xF = flagByte (drawnBlit x y n s).collision := by
  simp [drawn]

/-- A draw changes the framebuffer, V[0xF] and pc alone (R150). -/
theorem drawn_keeps : KeepsBut [0xF] s (drawn x y n s) where
  regs z hz := by
    rw [drawn, State.advancePc_readV, State.writeV_readV_other _ _ (List.ne_of_not_mem_cons hz), State.withFb_readV]
  index := rfl
  mem _ := rfl
  run := rfl
  fault := rfl
  params := rfl

theorem drawn_fb_wf (hp : s.params.wf = true) (hf : s.fb.wf s.params = true) :
    (drawn x y n s).fb.wf s.params = true :=
  blit_wf hp hf _ _

/-! ## The closed form of the blit (R157) -/

/-- The cells of a draw are the sprite's pixels in memory, by row and by bit position from the left (R152, R153). -/
theorem mem_drawnCells (hin : spriteInRange n s) (c : SpriteCell) :
    c ∈ drawnCells n s ↔ c.r < n ∧ c.b < 8 ∧ c.bit = spritePixel s c.r c.b := by
  have hbyte : ∀ r, r < n → s.mem.readByte (s.index.toNat + r) = some (s.mem.peek (s.index.toNat + r)) := fun r hr =>
    s.mem.readByte_of_lt (by unfold spriteInRange at hin; omega)
  simp only [drawnCells, mem_spriteCells, Memory.getElem?_peekRange, Nat.zero_add]
  constructor
  · rintro ⟨r, row, hrow, hr, hb, hbit⟩
    obtain ⟨hlt, rfl⟩ : r < n ∧ s.mem.peek (s.index.toNat + r) = row := by simpa using hrow
    exact ⟨hr ▸ hlt, hb, by rw [hbit, hr, spritePixel, hbyte r hlt, spriteBit]⟩
  · rintro ⟨hr, hb, hbit⟩
    exact ⟨c.r, _, if_pos hr, rfl, hb, by rw [hbit, spritePixel, hbyte c.r hr, spriteBit]⟩

/-- The sprite pixel (r, b) is a cell of the draw. -/
theorem pixel_mem_drawnCells (hin : spriteInRange n s) {r b : Nat} (hr : r < n) (hb : b < 8) :
    SpriteCell.mk r b (spritePixel s r b) ∈ drawnCells n s :=
  (mem_drawnCells hin _).mpr ⟨hr, hb, rfl⟩

/-- The destination of a cell is where its pixel lands (R154). -/
theorem destination_eq_landsOn (c : SpriteCell) : destination s.params (drawOrigin x y s) c = landsOn x y s c.r c.b := rfl

/-- The sprite pixels of one draw land on distinct pixels (R157). -/
theorem landsOn_inj (hn : n ≤ 15) (hp : s.params.wf = true) {r r' b b' : Nat} (hr : r < n) (hr' : r' < n) (hb : b < 8)
    (hb' : b' < 8) (h : landsOn x y s r b = landsOn x y s r' b') : r = r' ∧ b = b' :=
  destination_inj hp (drawOrigin x y s) (c := ⟨r, b, true⟩) (d := ⟨r', b', true⟩) ⟨hr.trans_le hn, hb⟩ ⟨hr'.trans_le hn, hb'⟩ h

theorem drawnCells_distinct (hn : n ≤ 15) (hp : s.params.wf = true) :
    (drawnCells n s).Pairwise fun c d =>
      destination s.params (drawOrigin x y s) c ≠ destination s.params (drawOrigin x y s) d :=
  destinations_distinct hp _ (by rwa [Memory.length_peekRange])

/-- A pixel the sprite lands on becomes its old value XOR the sprite's (R156). -/
theorem drawn_get_landsOn (hn : n ≤ 15) (hp : s.params.wf = true) (hin : spriteInRange n s) {r b : Nat} (hr : r < n)
    (hb : b < 8) :
    (drawn x y n s).fb.get (landsOn x y s r b) = (s.fb.get (landsOn x y s r b) ^^ spritePixel s r b) :=
  (foldl_blitCell _ _ _ ⟨s.fb, false⟩ (drawnCells_distinct hn hp)).1 _ (pixel_mem_drawnCells hin hr hb)

/-- The loop of R151 leaves a pixel that is no destination, distinct or not. -/
theorem foldl_blitCell_get_of_ne (p : Params) (o : Nat × Nat) {cells : List SpriteCell} {q : Pixel} (acc : Blitted)
    (hq : ∀ c ∈ cells, destination p o c ≠ q) : (cells.foldl (blitCell p o) acc).fb.get q = acc.fb.get q := by
  induction cells generalizing acc with
  | nil => rfl
  | cons c cells ih =>
    obtain ⟨hc, hcells⟩ := List.forall_mem_cons.mp hq
    rw [List.foldl_cons, ih _ hcells]
    simp [blitCell, Framebuffer.get_set, hc.symm]

/-- A pixel the sprite does not land on stays, whatever the parameters. -/
theorem drawn_get_of_ne (hin : spriteInRange n s) {p : Pixel} (hp : ∀ r b, r < n → b < 8 → landsOn x y s r b ≠ p) :
    (drawn x y n s).fb.get p = s.fb.get p := by
  refine foldl_blitCell_get_of_ne _ _ ⟨s.fb, false⟩ fun c hc => ?_
  obtain ⟨hr, hb, -⟩ := (mem_drawnCells hin c).mp hc
  exact hp c.r c.b hr hb

/-- The flag after a draw: some set bit lands on a pixel that was set before it (R156, R157). -/
theorem drawn_flag_iff (hn : n ≤ 15) (hp : s.params.wf = true) (hin : spriteInRange n s) :
    (drawn x y n s).readV 0xF = 1 ↔
      ∃ r b, r < n ∧ b < 8 ∧ spritePixel s r b = true ∧ s.fb.get (landsOn x y s r b) = true := by
  obtain ⟨-, -, hcoll⟩ := foldl_blitCell _ _ _ ⟨s.fb, false⟩ (drawnCells_distinct (x := x) (y := y) hn hp)
  rw [drawn_readV_flag, flagByte_eq_one_iff]
  change (drawnBlit x y n s).collision = _ at hcoll
  simp only [hcoll, Bool.false_or, List.any_eq_true, Bool.and_eq_true, destination_eq_landsOn]
  constructor
  · rintro ⟨c, hc, hset, hbit⟩
    obtain ⟨hr, hb, hpix⟩ := (mem_drawnCells hin c).mp hc
    exact ⟨c.r, c.b, hr, hb, hpix ▸ hbit, hset⟩
  · rintro ⟨r, b, hr, hb, hbit, hset⟩
    exact ⟨_, pixel_mem_drawnCells hin hr hb, hset, hbit⟩

end

/-- Settles O37, from the closed form of the blit and the fault entry of a sprite that leaves memory. -/
theorem drawCompositesSprite : Obligations.DrawCompositesSprite := by
  refine ⟨decodeWord_eq_drw_iff, fun x y n s hout => exec_drw_of_not_inRange hout, fun x y n s hn hp hin => ?_⟩
  refine ⟨fun r r' b b' hr hr' hb hb' h => landsOn_inj hn hp hr hr' hb hb' h, drawn x y n s, exec_drw_of_inRange hin,
    fun r b hr hb => drawn_get_landsOn hn hp hin hr hb, fun p h => drawn_get_of_ne hin h, ?_,
    drawn_flag_iff hn hp hin, rfl, drawn_keeps⟩
  rw [drawn_readV_flag]
  exact flagByte_eq_zero_or_one _

/-! ## The same draw again (R159) -/

section
variable {x y : Reg} {n : Nat} {s : State}

/-- A draw leaves I, memory and the parameters, so a second one has the same sprite; its origin is the same when the first did
not write V[X] or V[Y] as V[0xF]. -/
theorem landsOn_drawn (hx : (drawn x y n s).readV x = s.readV x) (hy : (drawn x y n s).readV y = s.readV y) (r b : Nat) :
    landsOn x y (drawn x y n s) r b = landsOn x y s r b := by
  simp only [landsOn, hx, hy, drawn_keeps.params]

theorem spritePixel_drawn (r b : Nat) : spritePixel (drawn x y n s) r b = spritePixel s r b := rfl

theorem drawn_twice_get (hn : n ≤ 15) (hp : s.params.wf = true) (hin : spriteInRange n s)
    (hx : (drawn x y n s).readV x = s.readV x) (hy : (drawn x y n s).readV y = s.readV y) (p : Pixel) :
    (drawn x y n (drawn x y n s)).fb.get p = s.fb.get p := by
  have hlands := landsOn_drawn hx hy
  by_cases hhit : ∃ r b, r < n ∧ b < 8 ∧ landsOn x y s r b = p
  · obtain ⟨r, b, hr, hb, rfl⟩ := hhit
    have hagain := drawn_get_landsOn (x := x) (y := y) (s := drawn x y n s) hn hp hin hr hb
    rw [hlands, spritePixel_drawn, drawn_get_landsOn hn hp hin hr hb] at hagain
    rw [hagain, Bool.xor_assoc, Bool.xor_self, Bool.xor_false]
  · have hmiss : ∀ r b, r < n → b < 8 → landsOn x y s r b ≠ p := fun r b hr hb h => hhit ⟨r, b, hr, hb, h⟩
    rw [drawn_get_of_ne (s := drawn x y n s) hin fun r b hr hb => hlands r b ▸ hmiss r b hr hb, drawn_get_of_ne hin hmiss]

/-- The flag of the second draw: where a set bit lands, the first draw left the opposite of what was there. -/
theorem drawn_twice_flag_iff (hn : n ≤ 15) (hp : s.params.wf = true) (hin : spriteInRange n s)
    (hx : (drawn x y n s).readV x = s.readV x) (hy : (drawn x y n s).readV y = s.readV y) :
    (drawn x y n (drawn x y n s)).readV 0xF = 1 ↔
      ∃ r b, r < n ∧ b < 8 ∧ spritePixel s r b = true ∧ s.fb.get (landsOn x y s r b) = false := by
  rw [drawn_flag_iff (s := drawn x y n s) hn hp hin]
  refine exists₂_congr fun r b => and_congr_right fun hr => and_congr_right fun hb => and_congr_right fun hbit => ?_
  rw [spritePixel_drawn] at hbit
  rw [landsOn_drawn hx hy, drawn_get_landsOn hn hp hin hr hb, hbit, Bool.xor_true, Bool.not_eq_true']

end

/-- Settles O39: every pixel is XORed twice with the same bit, and equal pixels in canonical form are equal data. -/
theorem drawTwiceRestoresFramebuffer : Obligations.DrawTwiceRestoresFramebuffer := by
  intro x y n s t hn hp hin he hx hy
  obtain rfl := Host.Outcome.next.inj ((exec_drw_of_inRange hin).symm.trans he)
  have hget := drawn_twice_get hn hp hin hx hy
  refine ⟨drawn x y n (drawn x y n s), exec_drw_of_inRange (s := drawn x y n s) hin, hget, fun hf => ?_,
    drawn_flag_iff hn hp hin, drawn_twice_flag_iff hn hp hin hx hy⟩
  have hfu : (drawn x y n (drawn x y n s)).fb.wf s.params = true := drawn_fb_wf hp (drawn_fb_wf hp hf)
  exact Framebuffer.ext_of_get ((Framebuffer.wf_iff _ _).mp hfu).1 ((Framebuffer.wf_iff _ _).mp hf).1 hget

/-! ## The host's surface (R158) -/

/-- Calls that carry the values of `fb` show it wherever they are made and leave the surface elsewhere, in any order and however
often a pixel is called. -/
theorem applyCalls_get {fb : Framebuffer} {calls : List SetPixel} (hfinal : ∀ c ∈ calls, c.isSet = fb.get c.at_)
    (surface : Framebuffer) (p : Pixel) :
    (applyCalls surface calls).get p = if ∃ c ∈ calls, c.at_ = p then fb.get p else surface.get p := by
  induction calls generalizing surface with
  | nil => simp [applyCalls]
  | cons c calls ih =>
    obtain ⟨hc, hcalls⟩ := List.forall_mem_cons.mp hfinal
    change (applyCalls (surface.set c.at_ c.isSet) calls).get p = _
    rw [ih hcalls, Framebuffer.get_set, hc]
    by_cases hp : c.at_ = p
    · simp [← hp]
    · simp [hp, Ne.symm hp]

/-- Calls that carry the values of `after`, at least one for each pixel where it differs from `before`, bring a surface from
`before` to `after` at every pixel shown or called. -/
theorem applyCalls_mirrors {before after surface : Framebuffer} {calls : List SetPixel}
    (hfinal : ∀ c ∈ calls, c.isSet = after.get c.at_)
    (hcover : ∀ p, after.get p ≠ before.get p → ∃ c ∈ calls, c.at_ = p) {p : Pixel}
    (hp : surface.get p = before.get p ∨ ∃ c ∈ calls, c.at_ = p) : (applyCalls surface calls).get p = after.get p := by
  rw [applyCalls_get hfinal]
  split
  next => rfl
  next hnone => rw [hp.resolve_right hnone, not_not.mp (mt (hcover p) hnone)]

section
variable {x y : Reg} {n : Nat} {s t : State}

/-! ### The calls of a draw -/

theorem drawCalls_of_inRange (hin : spriteInRange n s) :
    drawCalls x y n s = (drawnCells n s).map fun c =>
      ⟨destination s.params (drawOrigin x y s) c, (drawn x y n s).fb.get (destination s.params (drawOrigin x y s) c)⟩ := by
  simp only [drawCalls, spriteRows_of_inRange hin]
  rfl

theorem drawCalls_of_not_inRange (hout : ¬ spriteInRange n s) : drawCalls x y n s = [] := by
  simp only [drawCalls, spriteRows_of_not_inRange hout]

theorem drawCalls_final (hin : spriteInRange n s) :
    ∀ c ∈ drawCalls x y n s, c.isSet = (drawn x y n s).fb.get c.at_ := by
  simp [drawCalls_of_inRange hin]

/-- A pixel without a call is no destination of the sprite, so the draw leaves it. -/
theorem drawCalls_cover (hin : spriteInRange n s) {p : Pixel} (hp : (drawn x y n s).fb.get p ≠ s.fb.get p) :
    ∃ c ∈ drawCalls x y n s, c.at_ = p := by
  by_contra hnone
  refine hp (drawn_get_of_ne hin fun r b hr hb hland => hnone ?_)
  rw [drawCalls_of_inRange hin]
  exact ⟨_, List.mem_map_of_mem (pixel_mem_drawnCells hin hr hb), hland⟩

theorem drawCalls_distinct (hn : n ≤ 15) (hp : s.params.wf = true) (hin : spriteInRange n s) :
    (drawCalls x y n s).Pairwise fun c d => c.at_ ≠ d.at_ := by
  rw [drawCalls_of_inRange hin, List.pairwise_map]
  exact drawnCells_distinct hn hp

/-! ### The calls of a step -/

theorem stepCalls_of_fetch_outside {a : Nat} (hf : fetch s = .outside a) : stepCalls s = [] := by
  simp [stepCalls, hf]

theorem stepCalls_of_rejects {w : Word} {r : DecodeReject} (hf : fetch s = .ok w) (hd : decodeWord w = .reject r) :
    stepCalls s = [] := by
  cases hr : s.run <;> simp [stepCalls, hr, hf, hd]

theorem stepCalls_of_not_draw {w : Word} {i : Instr} (hf : fetch s = .ok w) (hd : decodeWord w = .ok i)
    (hi : isDraw i = false) : stepCalls s = [] := by
  cases hr : s.run with
  | faulted => simp [stepCalls, hr]
  | running =>
    cases i with
    | drw x y n => simp [isDraw] at hi
    | _ => simp [stepCalls, hr, hf, hd]

theorem stepCalls_of_draw {w : Word} (hr : s.run = .running) (hf : fetch s = .ok w)
    (hd : decodeWord w = .ok (.drw x y n)) : stepCalls s = drawCalls x y n s := by
  simp [stepCalls, hr, hf, hd]

/-- What a step does to the framebuffer and calls: nothing and nothing, or what a draw whose sprite is in memory does and calls. -/
theorem stepCalls_cases (hs : step s = .next t) :
    (t.fb = s.fb ∧ stepCalls s = []) ∨
    ∃ x y n, n ≤ 15 ∧ spriteInRange n s ∧ t = drawn x y n s ∧ stepCalls s = drawCalls x y n s := by
  rcases step_cases s with ⟨-, h⟩ | ⟨-, hpc, h⟩ | ⟨w, r, -, -, hf, hd, h⟩ | ⟨w, i, hr, -, hf, hd, h⟩
  · simp [h] at hs
  · obtain rfl := Host.Outcome.next.inj (h.symm.trans hs)
    exact .inl ⟨rfl, stepCalls_of_fetch_outside (fetch_of_ge hpc)⟩
  · obtain rfl := Host.Outcome.next.inj (h.symm.trans hs)
    exact .inl ⟨rfl, stepCalls_of_rejects hf hd⟩
  · have he : exec i s = .next t := h.symm.trans hs
    cases hi : isDraw i with
    | false => exact .inl ⟨(completed_of_not_draw he hi).fb hi, stepCalls_of_not_draw hf hd hi⟩
    | true =>
      obtain ⟨x, y, n, rfl⟩ : ∃ x y n, i = .drw x y n := by
        cases i with
        | drw x y n => exact ⟨x, y, n, rfl⟩
        | _ => simp [isDraw] at hi
      have hcalls := stepCalls_of_draw hr hf hd
      by_cases hin : spriteInRange n s
      · obtain rfl := Host.Outcome.next.inj ((exec_drw_of_inRange hin).symm.trans he)
        have hn : n = bitsAt w 3 0 := ((decodeWord_eq_drw_iff w x y n).mp hd).2.2.2
        exact .inr ⟨x, y, n, by rw [hn, ← fieldN_eq_bitsAt]; omega, hin, rfl, hcalls⟩
      · obtain rfl := Host.Outcome.next.inj ((exec_drw_of_not_inRange hin).symm.trans he)
        exact .inl ⟨rfl, hcalls.trans (drawCalls_of_not_inRange hin)⟩

theorem stepCalls_final (hs : step s = .next t) : ∀ c ∈ stepCalls s, c.isSet = t.fb.get c.at_ := by
  rcases stepCalls_cases hs with ⟨-, hnone⟩ | ⟨x, y, n, -, hin, rfl, hcalls⟩
  · simp [hnone]
  · exact hcalls ▸ drawCalls_final hin

theorem stepCalls_cover (hs : step s = .next t) (p : Pixel) (hp : t.fb.get p ≠ s.fb.get p) :
    ∃ c ∈ stepCalls s, c.at_ = p := by
  rcases stepCalls_cases hs with ⟨hfb, -⟩ | ⟨x, y, n, -, hin, rfl, hcalls⟩
  · exact absurd (by rw [hfb]) hp
  · exact hcalls ▸ drawCalls_cover hin hp

theorem stepCalls_distinct (hs : step s = .next t) (hp : s.params.wf = true) :
    (stepCalls s).Pairwise fun c d => c.at_ ≠ d.at_ := by
  rcases stepCalls_cases hs with ⟨-, hnone⟩ | ⟨x, y, n, hn, hin, -, hcalls⟩
  · rw [hnone]; exact .nil
  · exact hcalls ▸ drawCalls_distinct hn hp hin

end

/-- Settles O19: any calls with final values that cover the changed pixels mirror the framebuffer, all of a step's calls in any
order or some of them. -/
theorem hostSurfaceMirrorsFramebuffer : Obligations.HostSurfaceMirrorsFramebuffer := by
  intro s t surface shown calls hs hshown hperm
  have hfinal := stepCalls_final hs
  have hcover := stepCalls_cover hs
  refine ⟨fun p hp => ?_, hfinal, hcover, stepCalls_distinct hs, fun part hpart hpartCover p hp => ?_⟩
  · simp only [← hperm.mem_iff] at hfinal hcover hp
    exact applyCalls_mirrors hfinal hcover (hp.imp_left (hshown p))
  · exact applyCalls_mirrors (fun c hc => hfinal c (hpart c hc)) hpartCover (.inl (hshown p hp))

end Sys2Proof.Machine
end

section
/-! The family of 60_exceptions.md: which words are illegal (R88), which steps fault and what they enter (R182, R183, R185), and that
only reset leads out of a fault (R188). -/

namespace Sys2Proof

/-- The families and sub-operations of the words that the decoder rejects: those without a row in rule R86. -/
theorem decodeWord_rejects_iff (w : Word) :
    (∃ r, decodeWord w = .reject r) ↔
      (family w).toNat ∉ [1, 3, 6, 7, 8, 0xD] ∨
        (family w).toNat = 8 ∧ (fieldN w).toNat ∉ [0, 1, 2, 3, 4, 5, 6, 7, 0xE] := by
  rcases decodeWord_cases w with
    ⟨hf, hd⟩ | ⟨hf, hd⟩ | ⟨hf, hd⟩ | ⟨hf, hd⟩ | ⟨hf, hd⟩ | ⟨hf, hd⟩ | ⟨hf, hd⟩
  -- family 0x8: the second level answers
  case inr.inr.inr.inr.inl =>
    rcases decodeAlu_cases w with
      ⟨hn, ha⟩ | ⟨hn, ha⟩ | ⟨hn, ha⟩ | ⟨hn, ha⟩ | ⟨hn, ha⟩ | ⟨hn, ha⟩ | ⟨hn, ha⟩ | ⟨hn, ha⟩ | ⟨hn, ha⟩ | ⟨hn, ha⟩
    case inr.inr.inr.inr.inr.inr.inr.inr.inr => exact iff_of_true ⟨_, hd.trans ha⟩ (.inr ⟨hf, hn⟩)
    all_goals simp [hd, ha, hf, hn]
  case inr.inr.inr.inr.inr.inr => exact iff_of_true ⟨_, hd⟩ (.inl hf)
  all_goals simp [hd, hf]

end Sys2Proof

namespace Sys2Proof.Machine

/-! ## The illegal words of R88 are those that the decoder rejects -/

theorem family_eq_bitsAt (w : Word) : (family w).toNat = bitsAt w 15 12 := by
  have := w.isLt
  simp only [family_toNat, bitsAt]
  omega

/-- Rule R88 lists the families, and the low nibbles of family 0x8, that rule R86 leaves free. -/
theorem illegalWord_iff_rejects (w : Word) : illegalWord w = true ↔ ∃ r, decodeWord w = .reject r := by
  have hfamily : ∀ k < 16, [0x0, 0x2, 0x4, 0x5, 0x9, 0xA, 0xB, 0xC, 0xE, 0xF].contains k = true ↔
      k ∉ [1, 3, 6, 7, 8, 0xD] := by decide
  have hnibble : ∀ k < 16, [0x8, 0x9, 0xA, 0xB, 0xC, 0xD, 0xF].contains k = true ↔
      k ∉ [0, 1, 2, 3, 4, 5, 6, 7, 0xE] := by decide
  rw [decodeWord_rejects_iff, illegalWord, Bool.or_eq_true, Bool.and_eq_true, beq_iff_eq, ← family_eq_bitsAt,
    ← fieldN_eq_bitsAt, hfamily _ (family_lt w), hnibble _ (fieldN w).isLt]

/-! ## The steps that fault -/

section
variable {s t : State}

/-- The three ways a step of a running unit faults (R187): its fetch leaves memory, its word is no instruction, or it is a draw
whose sprite leaves memory. -/
theorem step_faults_cases (hr : s.run = .running) (hs : step s = .next t) (ht : t.run = .faulted) :
    (4095 ≤ s.pc.toNat ∧ t = s.takeAddressError (max s.pc.toNat 4096)) ∨
    (∃ w r, fetch s = .ok w ∧ decodeWord w = .reject r ∧ t = s.takeDecodeError w) ∨
    (∃ w x y n, fetch s = .ok w ∧ decodeWord w = .ok (.drw x y n) ∧ 1 ≤ n ∧ 4095 < s.index.toNat + n - 1 ∧
      t = s.takeAddressError (max s.index.toNat 4096)) := by
  rcases step_cases s with ⟨-, h⟩ | ⟨-, hpc, h⟩ | ⟨w, r, -, -, hf, hd, h⟩ | ⟨w, i, -, -, hf, hd, h⟩
  · simp [h] at hs
  · exact .inl ⟨hpc, Host.Outcome.next.inj (hs.symm.trans h)⟩
  · exact .inr (.inl ⟨w, r, hf, hd, Host.Outcome.next.inj (hs.symm.trans h)⟩)
  · have he : exec i s = .next t := h.symm.trans hs
    rcases exec_cases i s with ⟨u, hu, hc⟩ | ⟨x, y, n, rfl, hn, hout, hu⟩
    · obtain rfl : u = t := Host.Outcome.next.inj (hu.symm.trans he)
      simp [hc.run, hr] at ht
    · exact .inr (.inr ⟨w, x, y, n, hf, hd, hn, hout, Host.Outcome.next.inj (he.symm.trans hu)⟩)

/-- FAULT.info of an AddressError loses no bit of the address, which lies above memory (R28). -/
theorem addressErrorInfo_gt (p : Word) : 4095 < (BitVec.ofNat 16 (max p.toNat 4096)).toNat := by
  rw [BitVec.toNat_ofNat]
  omega

/-- A step that faults is one fault entry, with the fetched word or an address above 4095 (R185). -/
theorem eq_takeFault_of_faults (hr : s.run = .running) (hs : step s = .next t) (ht : t.run = .faulted) :
    ∃ cause info, t = s.takeFault cause info ∧
      ((cause = .decodeError ∧ fetch s = .ok info) ∨ (cause = .addressError ∧ 4095 < info.toNat)) := by
  rcases step_faults_cases hr hs ht with ⟨-, h⟩ | ⟨w, r, hf, -, h⟩ | ⟨w, x, y, n, -, -, -, -, h⟩
  · exact ⟨_, _, h, .inr ⟨rfl, addressErrorInfo_gt s.pc⟩⟩
  · exact ⟨_, _, h, .inl ⟨rfl, hf⟩⟩
  · exact ⟨_, _, h, .inr ⟨rfl, addressErrorInfo_gt s.index⟩⟩

end

/-- Settles O9: a word is illegal iff the decoder rejects it, and no other step enters DecodeError. -/
theorem illegalWordTakesDecodeError : Obligations.IllegalWordTakesDecodeError := by
  refine fun s hr => ⟨fun w hf hw => ?_, fun t hs ht hcause => ?_⟩
  · obtain ⟨r, hd⟩ := (illegalWord_iff_rejects w).mp hw
    exact step_of_rejects hr hf hd
  · rcases step_faults_cases hr hs ht with ⟨-, rfl⟩ | ⟨w, r, hf, hd, -⟩ | ⟨w, x, y, n, -, -, -, -, rfl⟩
    · simp at hcause
    · exact ⟨w, hf, (illegalWord_iff_rejects w).mpr ⟨r, hd⟩⟩
    · simp at hcause

/-- Settles O10: the fetch at pc = 4095 or above and the draw with a row above 4095 enter AddressError, and no other step does. -/
theorem addressErrorExactlyWhen : Obligations.AddressErrorExactlyWhen := by
  refine fun s hr => ⟨fun hpc => ?_, fun w x y n hf hd hn hout => ?_, fun t hs ht hcause => ?_⟩
  · exact step_of_fetch_outside hr (fetch_of_ge hpc)
  · exact (step_of_decodes hr hf hd).trans ((exec_drw_addressError_iff x y n s).mpr ⟨hn, hout⟩)
  · rcases step_faults_cases hr hs ht with ⟨hpc, -⟩ | ⟨w, r, -, -, rfl⟩ | ⟨w, x, y, n, hf, hd, hn, hout, -⟩
    · exact .inl hpc
    · simp at hcause
    · exact .inr ⟨w, x, y, n, hf, hd, hn, hout⟩

/-- Settles O11: fault entry writes RUN and FAULT alone, and the step reports the record it wrote. -/
theorem faultEntryIsPrecise : Obligations.FaultEntryIsPrecise := by
  intro s t hr hs ht
  have hreport := specStep_of_faults hs ht
  obtain ⟨cause, info, rfl, hinfo⟩ := eq_takeFault_of_faults hr hs ht
  refine ⟨fun z => rfl, rfl, rfl, rfl, fun a => rfl, rfl, rfl, rfl, ?_, hreport⟩
  rcases hinfo with ⟨rfl, hfetch⟩ | ⟨rfl, habove⟩
  · exact .inl ⟨rfl, hfetch⟩
  · exact .inr ⟨rfl, habove⟩

/-! ## A fault is final -/

theorem runSteps_of_halted {s : State} (hr : s.run = .faulted) (k : Nat) :
    (runSteps k s).state = s ∧ (runSteps k s).traces = [] := by
  cases k with
  | zero => exact ⟨rfl, rfl⟩
  | succ k =>
    rw [runSteps_succ_of_halted (specStep_of_halted hr)]
    exact ⟨rfl, rfl⟩

/-- A load, accepted or refused, writes memory alone (R213). -/
theorem load_state (bytes : List Byte) (s : State) : ∃ m, (load bytes s).1 = s.withMem m := by
  unfold load
  split
  · exact ⟨s.mem, rfl⟩
  · exact ⟨_, rfl⟩

/-- What each move of the host makes of the unit's state (R221). -/
theorem Session.move_state {e e' : Session} {m : HostMove} {reply : HostReply} (h : e.move m = some (e', reply)) :
    (m = .reset ∧ e'.state = e.state.hostReset) ∨
    (∃ bytes, m = .load bytes ∧ e'.state = (load bytes e.state).1) ∨
    (m = .runBatch ∧ e'.state = (runBatch e.state).state) := by
  cases m with
  | reset =>
    simp only [Session.move, Option.some.injEq, Prod.mk.injEq] at h
    exact .inl ⟨rfl, h.1 ▸ rfl⟩
  | load bytes =>
    refine .inr (.inl ⟨bytes, rfl, ?_⟩)
    cases hphase : e.phase with
    | booted => simp [Session.move, hphase] at h
    | awaitingLoad =>
      rcases hload : load bytes e.state with ⟨t, _ | len⟩ <;>
      · simp only [Session.move, hphase, hload, Option.some.injEq, Prod.mk.injEq] at h
        exact h.1 ▸ rfl
  | runBatch =>
    refine .inr (.inr ⟨rfl, ?_⟩)
    cases hphase : e.phase with
    | awaitingLoad => simp [Session.move, hphase] at h
    | booted =>
      simp only [Session.move, hphase, Option.some.injEq, Prod.mk.injEq] at h
      exact h.1 ▸ rfl

/-- Settles O13: a faulted unit has no step, a load writes memory alone, and reset gives RUN and FAULT their start-up values. -/
theorem faultIsFinal : Obligations.FaultIsFinal := by
  refine ⟨fun s k hr => runSteps_of_halted hr k, fun e e' m reply hr hm hmove => ?_, fun e => ⟨_, rfl, rfl, rfl⟩⟩
  rcases Session.move_state hmove with ⟨hreset, -⟩ | ⟨bytes, -, hstate⟩ | ⟨-, hstate⟩
  · exact absurd hreset hm
  · obtain ⟨mem, hload⟩ := load_state bytes e.state
    rw [hstate, hload]
    exact ⟨hr, rfl⟩
  · have hfixed : (runBatch e.state).state = e.state := (runSteps_of_halted hr _).1
    rw [hstate, hfixed]
    exact ⟨hr, rfl⟩

end Sys2Proof.Machine
end

section
/-! The family of 70_reset_and_hazards.md: what a load copies and what it leaves (R213, R181), what reset leaves (R210), and which
moves the session of log entry 7 gives the host in each phase of the boot (R214, R215, R221). -/

namespace Sys2Proof.Machine

/-! ## The load -/

theorem load_of_gt {bytes : List Byte} (s : State) (h : 3584 < bytes.length) :
    load bytes s = (s, .loadError bytes.length) :=
  if_pos h

theorem load_of_le {bytes : List Byte} (s : State) (h : bytes.length ≤ 3584) :
    load bytes s = (s.withMem (s.mem.writeRange Config.loadAddr bytes), .ok) :=
  if_neg (Nat.not_lt.mpr h)

namespace Memory

section
variable {bytes : List Byte} {a : Nat} (m : Memory) (h : a + bytes.length ≤ Config.memSize)
include h

theorem readByte_writeRange_of_getElem? {i : Nat} {b : Byte} (hb : bytes[i]? = some b) :
    (m.writeRange a bytes).readByte (a + i) = some b := by
  rw [readByte_writeRange bytes m a h, if_pos (Nat.le_add_right a i), Nat.add_sub_cancel_left, hb, Option.some_or]

theorem readByte_writeRange_of_outside {x : Nat} (hx : x < a ∨ a + bytes.length ≤ x) :
    (m.writeRange a bytes).readByte x = m.readByte x := by
  rw [readByte_writeRange bytes m a h]
  rcases hx with hbelow | habove
  · exact if_neg (Nat.not_le.mpr hbelow)
  · have hnone : bytes[x - a]? = none := List.getElem?_eq_none (by omega)
    rw [hnone, Option.none_or, ite_self]

end

end Memory

/-- Settles O20: an accepted load is one write of the program's bytes from 0x200, which stays inside memory by the size limit. -/
theorem loadCopiesProgram : Obligations.LoadCopiesProgram := by
  refine fun bytes s => ⟨load_of_gt s, fun h => ⟨_, load_of_le s h, ?_⟩⟩
  have hfits : Config.loadAddr + bytes.length ≤ Config.memSize := by simp only [Config.loadAddr, Config.memSize]; omega
  exact ⟨fun _ _ hb => s.mem.readByte_writeRange_of_getElem? hfits hb,
    fun _ ha => s.mem.readByte_writeRange_of_outside hfits ha, fun _ => rfl, rfl, rfl, rfl, rfl, rfl, rfl⟩

/-! ## Reset -/

theorem Memory.readByte_nil {a : Nat} (h : a < 4096) : Memory.readByte [] a = some 0 :=
  Memory.readByte_of_lt [] h

/-- Settles O21, field by field; power-on differs from reset in its arguments alone. -/
theorem resetValues : Obligations.ResetValues := by
  refine ⟨fun s => ⟨s.hostReset_readV, rfl, rfl, fun a ha => ?_, rfl, rfl, rfl, rfl⟩, ?_⟩
  · exact Memory.readByte_nil ha
  · rintro p f s rfl rfl
    rfl

/-! ## The moves of each phase -/

namespace Session

variable {e : Session} {bytes : List Byte}

theorem move_load_of_booted (hphase : e.phase = .booted) : e.move (.load bytes) = none := by
  simp only [move, hphase]

theorem move_runBatch_of_awaitingLoad (hphase : e.phase = .awaitingLoad) : e.move .runBatch = none := by
  simp only [move, hphase]

theorem move_load_accepted (hphase : e.phase = .awaitingLoad) (h : bytes.length ≤ 3584) :
    e.move (.load bytes) = some (⟨(load bytes e.state).1, .booted⟩, .loaded .ok) := by
  simp only [move, hphase, load_of_le e.state h]

theorem move_load_refused (hphase : e.phase = .awaitingLoad) (h : 3584 < bytes.length) :
    e.move (.load bytes) = some (e, .loaded (.loadError bytes.length)) := by
  simp only [move, hphase, load_of_gt e.state h]
  rw [← hphase]

end Session

/-- Settles O22, move by move in each phase of the boot. -/
theorem loadOnlyBeforeFirstStep : Obligations.LoadOnlyBeforeFirstStep :=
  fun _ _ => ⟨Session.move_load_of_booted, Session.move_runBatch_of_awaitingLoad,
    fun hphase h => ⟨_, Session.move_load_accepted hphase h, rfl⟩, Session.move_load_refused, ⟨_, rfl, rfl⟩⟩

end Sys2Proof.Machine
end

section
/-! The statements about the whole model, first its encoding: the decoder and the encoder undo each other (R81, R82, R86, R90). -/

namespace Sys2Proof

theorem Instr.wellFormed_drw_iff (x y : Reg) (n : Nat) : (Instr.drw x y n).wellFormed = true ↔ n ≤ 15 :=
  decide_eq_true_iff

/-- The decoder reads the word of a well-formed instruction back as that instruction. -/
theorem decodeWord_encodeWord {i : Instr} (hi : i.wellFormed = true) : decodeWord (encodeWord i) = .ok i := by
  cases i with
  | jp nnn => exact decodeWord_encodeWord_jp nnn
  | se | ldi | addi => simp [decodeWord, encodeWord]
  | drw x y n =>
    have hn : n % 16 = n := Nat.mod_eq_of_lt (Nat.lt_succ_of_le ((Instr.wellFormed_drw_iff x y n).mp hi))
    simp [decodeWord, encodeWord, hn]
  | _ => exact decodeWord_encodeWord_of_family_alu (family_formatXYN ..)

/-- The fields of a word, in the format of the row it belongs to, are all of the word. -/
theorem encodeWord_of_decodes {w : Word} {i : Instr} (hd : decodeWord w = .ok i) : encodeWord i = w := by
  have hfamily (k : BitVec 4) (hf : (family w).toNat = k.toNat) : k = family w := (BitVec.eq_of_toNat_eq hf).symm
  rcases decodeWord_cases w with
    ⟨hf, h⟩ | ⟨hf, h⟩ | ⟨hf, h⟩ | ⟨hf, h⟩ | ⟨hf, h⟩ | ⟨hf, h⟩ | ⟨-, h⟩
  · cases h.symm.trans hd
    rw [encodeWord, hfamily 0x1 hf, formatNNN_fields]
  · cases h.symm.trans hd
    rw [encodeWord, hfamily 0x3 hf, formatXNN_fields]
  · cases h.symm.trans hd
    rw [encodeWord, hfamily 0x6 hf, formatXNN_fields]
  · cases h.symm.trans hd
    rw [encodeWord, hfamily 0x7 hf, formatXNN_fields]
  · exact encodeWord_of_decodeAlu (BitVec.eq_of_toNat_eq hf) (h.symm.trans hd)
  · cases h.symm.trans hd
    rw [encodeWord, hfamily 0xD hf, BitVec.ofNat_toNat, BitVec.setWidth_eq, formatXYN_fields]
  · cases h.symm.trans hd

/-- A decoded row count is the value of the four bits of N (R82). -/
theorem wellFormed_of_decodes {w : Word} {i : Instr} (hd : decodeWord w = .ok i) : i.wellFormed = true := by
  cases i with
  | drw x y n =>
    obtain ⟨-, -, -, rfl⟩ := (Machine.decodeWord_eq_drw_iff w x y n).mp hd
    rw [Instr.wellFormed_drw_iff, ← Machine.fieldN_eq_bitsAt]
    exact Nat.le_of_lt_succ (fieldN w).isLt
  | _ => rfl

/-- Settles O1: the bytes of a word are the word's, and the decoder reads the word of a well-formed instruction back. -/
theorem decodeOfEncodeReturnsInstr : Obligations.DecodeOfEncodeReturnsInstr := by
  intro i rest hi
  rw [encode, decodeBytes_bytesOfWord, decodeWord_encodeWord hi]

/-- Settles O2, from the fields of the word: together they are the word, and N has four bits. -/
theorem encodeOfDecodeReturnsWord : Obligations.EncodeOfDecodeReturnsWord :=
  fun _ _ hd => ⟨encodeWord_of_decodes hd, wellFormed_of_decodes hd⟩

/-- Settles O4, word by word. -/
theorem decodesSampleWords : Obligations.DecodesSampleWords := by
  unfold Obligations.DecodesSampleWords
  decide

end Sys2Proof
end

section
/-! The statements about the whole model, then its step: what a running unit answers (R100, R101, R104), the flag register and the
registers an instruction writes (R21, R24, R130), and which instructions touch the framebuffer (R26, R160). -/

namespace Sys2Proof.Machine

/-! ## The step -/

theorem Memory.readByte_eq_some_iff (m : Memory) (a : Nat) (b : Byte) :
    m.readByte a = some b ↔ a < 4096 ∧ m.peek a = b := by
  simp [readByte]

theorem fetch_of_readByte {s : State} {hi lo : Byte} (hhi : s.mem.readByte s.pc.toNat = some hi)
    (hlo : s.mem.readByte (s.pc.toNat + 1) = some lo) : fetch s = .ok (wordOfBytes hi lo) := by
  obtain ⟨-, rfl⟩ := (Memory.readByte_eq_some_iff ..).mp hhi
  obtain ⟨hpc, rfl⟩ := (Memory.readByte_eq_some_iff ..).mp hlo
  exact fetch_of_lt (by omega)

theorem decodeWord_of_decodeBytes {hi lo : Byte} {rest : List Byte} {i : Instr}
    (h : decodeBytes [hi, lo] = .ok (i, rest)) : decodeWord (wordOfBytes hi lo) = .ok i := by
  cases hd : decodeWord (wordOfBytes hi lo) with
  | ok j =>
    simp only [decodeBytes, hd, Decoded.ok.injEq, Prod.mk.injEq] at h
    rw [h.1]
  | reject r => simp [decodeBytes, hd] at h

/-- Settles O7: the two bytes are the fetched word, and the step of a word that decodes is the instruction's meaning. -/
theorem stepRunsDecodedInstruction : Obligations.StepRunsDecodedInstruction := by
  intro s hi lo i hr hhi hlo hbytes
  have hd : decodeWord (wordOfBytes hi lo) = .ok i := decodeWord_of_decodeBytes hbytes
  exact ⟨step_of_decodes hr (fetch_of_readByte hhi hlo) hd, wellFormed_of_decodes hd⟩

theorem step_of_halted {s : State} (hr : s.run = .faulted) : step s = .fault .halted := by
  simp [step, hr]

/-- The step of a running unit is total (R100). -/
theorem step_of_running {s : State} (hr : s.run = .running) : ∃ t, step s = .next t := by
  rcases step_running hr with ⟨-, -, t, -, -, -, -, hs, -⟩ | ⟨cause, info, hs, -⟩
  · exact ⟨t, hs⟩
  · exact ⟨_, hs⟩

/-- A step is halted or has a next state: nothing is refused. -/
theorem step_halted_or_next (s : State) : (s.run = .faulted ∧ step s = .fault .halted) ∨ ∃ t, step s = .next t := by
  cases hr : s.run with
  | faulted => exact .inl ⟨rfl, step_of_halted hr⟩
  | running => exact .inr (step_of_running hr)

theorem specStep_fst_of_next {s t : State} (hs : step s = .next t) : (specStep s).1 = t := by
  simp [specStep, hs]

/-- Settles O8, from the two answers a step can give. -/
theorem everyRunningStepAnswers : Obligations.EveryRunningStepAnswers := by
  refine fun s => ⟨step_of_running, fun r h => ?_, fun t => specStep_fst_of_next⟩
  rcases step_halted_or_next s with ⟨-, hs⟩ | ⟨t, hs⟩
  · simp [hs] at h
  · simp [hs] at h

theorem stepCalls_of_halted {s : State} (hr : s.run = .faulted) : stepCalls s = [] := by
  simp [stepCalls, hr]

/-- Settles O12: a running unit has a next state, so only a step with RUN = 0 is halted. -/
theorem haltedUnitHasNoStep : Obligations.HaltedUnitHasNoStep := by
  refine fun s => ⟨⟨step_of_halted, fun h => ?_⟩, fun hr => ?_, rfl⟩
  · rcases step_halted_or_next s with ⟨hr, -⟩ | ⟨t, hs⟩
    · exact hr
    · simp [hs] at h
  · exact ⟨specStep_of_halted hr, stepCalls_of_halted hr, (runSteps_of_halted hr 1).2⟩

/-- Settles O17: RUN decides whether a step is halted, and a step with a next state reads no IPF. -/
theorem instructionsPerFrameIsInvisible : Obligations.InstructionsPerFrameIsInvisible := by
  intro s j
  change step (s.withIpf j) = _
  rcases step_halted_or_next s with ⟨hr, hs⟩ | ⟨t, hs⟩
  · rw [hs]; exact step_of_halted (s := s.withIpf j) hr
  · rw [hs]; exact step_withIpf j hs

/-! ## The flag register -/

/-- A draw completes with its sprite drawn, or takes AddressError. -/
theorem eq_of_exec_drw {x y : Reg} {n : Nat} {s t : State} (he : exec (.drw x y n) s = .next t) :
    t = drawn x y n s ∨ t = s.takeAddressError (max s.index.toNat 4096) := by
  by_cases hin : spriteInRange n s
  · exact .inl (Host.Outcome.next.inj (he.symm.trans (exec_drw_of_inRange hin)))
  · exact .inr (Host.Outcome.next.inj (he.symm.trans (exec_drw_of_not_inRange hin)))

/-- Bit 8 of a 9-bit intermediate is what it holds beyond 8 bits. -/
theorem ninthBit_toNat_eq_div (t : BitVec 9) : (ninthBit t).toNat = t.toNat / 256 := by
  rw [ninthBit_toNat]
  split <;> omega

/-- Settles O34: with X = 0xF the flag stands where it is written last, and the result where the flag is written first. -/
theorem flagRegisterAsDestination : Obligations.FlagRegisterAsDestination := by
  intro y s
  have hlogic (result : Byte) : (s.resultThenFlag 0xF result 0).readV 0xF = 0 := s.resultThenFlag_readV_flag ..
  refine ⟨_, _, _, _, _, _, _, _, exec_or .., hlogic _, exec_and .., hlogic _, exec_xor .., hlogic _,
    exec_add .., ?add, exec_sub .., ?sub, exec_subn .., ?subn, exec_shr .., ?shr, exec_shl .., ?shl⟩
  case add => rw [s.resultThenFlag_readV_flag, ninthBit_toNat_eq_div, addWide_toNat]
  case sub | subn => rw [s.resultThenFlag_readV_flag, ninthBit_toNat_eq_div, subWide_toNat]
  case shr => rw [s.flagThenResult_readV_dest, shr_result]
  case shl => rw [s.flagThenResult_readV_dest, shl_result]

/-- Settles O35, instruction by instruction: the register that each writes last. -/
theorem flagRegisterDiscipline : Obligations.FlagRegisterDiscipline := by
  intro i s t hr he ht
  cases i with
  | drw x y n =>
    rcases eq_of_exec_drw he with rfl | rfl
    · rw [drawn_readV_flag]
      exact flagByte_eq_zero_or_one _
    · simp at ht
  | jp | se => obtain rfl := Host.Outcome.next.inj he; rfl
  | ldi x | addi x | mov x =>
    obtain rfl := Host.Outcome.next.inj he
    exact fun hx => s.writeV_readV_other _ hx.symm
  | or | and | xor => obtain rfl := Host.Outcome.next.inj he; exact s.resultThenFlag_readV_flag ..
  | add | sub | subn =>
    obtain rfl := Host.Outcome.next.inj he
    change _ ∨ _
    rw [s.resultThenFlag_readV_flag]
    exact flagByte_eq_zero_or_one _
  | shr | shl =>
    obtain rfl := Host.Outcome.next.inj he
    intro hx
    rw [s.flagThenResult_readV_flag _ _ hx]
    exact flagByte_eq_zero_or_one _

/-! ## The registers an instruction writes -/

/-- The "writes" column of rule R21 for one instruction, a draw that faults included. -/
theorem exec_readV_of_not_written {i : Instr} {s t : State} {z : Reg} (he : exec i s = .next t) (hz : z ∉ writtenRegs i) :
    t.readV z = s.readV z := by
  cases i with
  | drw x y n =>
    rcases eq_of_exec_drw he with rfl | rfl
    · exact drawn_keeps.regs z hz
    · rfl
  | jp | se => obtain rfl := Host.Outcome.next.inj he; rfl
  | ldi x | addi x | mov x =>
    obtain rfl := Host.Outcome.next.inj he
    exact (keepsButRegs_writeV_advancePc s x _).regs z hz
  | or x | and x | xor x | add x | sub x | subn x =>
    obtain rfl := Host.Outcome.next.inj he
    exact (s.resultThenFlag_keeps x _ _).regs z hz
  | shr x | shl x =>
    obtain rfl := Host.Outcome.next.inj he
    exact (s.flagThenResult_keeps x _ _).regs z hz

/-- Settles O36: a step that executes no instruction is a fault entry, which writes no register. -/
theorem onlyListedRegistersChange : Obligations.OnlyListedRegistersChange := by
  intro s t z hs hchanged
  rcases step_cases s with ⟨-, h⟩ | ⟨-, -, h⟩ | ⟨w, r, -, -, -, -, h⟩ | ⟨w, i, -, -, hf, hd, h⟩
  · simp [h] at hs
  · obtain rfl := Host.Outcome.next.inj (h.symm.trans hs)
    exact absurd (s.takeAddressError_readV _ z) hchanged
  · obtain rfl := Host.Outcome.next.inj (h.symm.trans hs)
    exact absurd (s.takeDecodeError_readV w z) hchanged
  · refine ⟨w, i, hf, hd, ?_⟩
    by_contra hz
    exact hchanged (exec_readV_of_not_written (h.symm.trans hs) hz)

/-! ## The framebuffer -/

theorem drawnBlit_of_zero_rows (x y : Reg) (s : State) : drawnBlit x y 0 s = { fb := s.fb, collision := false } := rfl

/-- Settles O38: no row is read, so the draw completes, and its loop has no pixel. -/
theorem drawOfZeroRows : Obligations.DrawOfZeroRows := by
  intro x y s
  refine ⟨drawn x y 0 s, exec_drw_of_inRange (.inl rfl), ?_, rfl, ⟨drawn_keeps, ?_⟩, fun m => ?_⟩
  · rw [drawn_readV_flag, drawnBlit_of_zero_rows]; rfl
  · rw [drawn_fb, drawnBlit_of_zero_rows]
  · exact exec_drw_of_inRange (s := s.withMem m) (.inl rfl)

theorem isDraw_eq_false_iff (i : Instr) : isDraw i = false ↔ ∀ x y n, i ≠ .drw x y n := by
  cases i <;> simp [isDraw]

/-- An instruction that does not draw reads no pixel. -/
theorem exec_withFb {i : Instr} {s t : State} (f : Framebuffer) (hi : isDraw i = false) (he : exec i s = .next t) :
    exec i (s.withFb f) = .next (t.withFb f) := by
  cases i with
  | drw => simp [isDraw] at hi
  | _ => obtain rfl := Host.Outcome.next.inj he; rfl

/-- Settles O40: an instruction that does not draw completes with the framebuffer it found, and its meaning names no pixel. -/
theorem onlyDrawTouchesFramebuffer : Obligations.OnlyDrawTouchesFramebuffer := by
  intro i s t f hi he
  rw [← isDraw_eq_false_iff] at hi
  exact ⟨(completed_of_not_draw he hi).fb hi, exec_withFb f hi he⟩

end Sys2Proof.Machine
end

section
/-! The statements about the whole model, last its runs: the invariant (R26, R28, R54), what no run changes (R22, R25, R57), and
the host's surface over a run (R105, R158). -/

namespace Sys2Proof.Machine

/-! ## The invariant after a step -/

namespace State

variable {s : State}

theorem faultConsistent_of_running (hr : s.run = .running) : s.faultConsistent = true ↔ s.fault = FaultRecord.clear := by
  simp [faultConsistent, hr]

theorem faultConsistent_takeDecodeError {w : Word} {r : DecodeReject} (hd : decodeWord w = .reject r) :
    (s.takeDecodeError w).faultConsistent = true := by
  simp [faultConsistent, hd]

/-- FAULT.info of an AddressError is an address above memory, whatever the access it is taken from. -/
theorem faultConsistent_takeAddressError (s : State) (a : Word) :
    (s.takeAddressError (max a.toNat 4096)).faultConsistent = true := by
  simp only [faultConsistent, takeAddressError_run, takeAddressError_fault, takeAddressError_pc, decide_true, Bool.true_and]
  exact decide_eq_true (addressErrorInfo_gt a)

/-- Fault entry writes RUN and FAULT alone, so the invariant asks only that they agree. -/
theorem Inv.takeFault (hs : s.Inv) {cause : FaultCause} {info : Word}
    (hfault : (s.takeFault cause info).faultConsistent = true) : (s.takeFault cause info).Inv where
  mem := hs.mem
  fb := hs.fb
  params := hs.params
  fault := hfault

/-- A completed instruction writes no part of the invariant but the framebuffer, which it keeps canonical. -/
theorem Inv.completed (hs : s.Inv) (hr : s.run = .running) {i : Instr} {t : State} (hc : Completed i s t) : t.Inv where
  mem := hc.mem ▸ hs.mem
  fb := hc.params ▸ hc.fbWf hs.params hs.fb
  params := hc.params ▸ hs.params
  fault := by
    rw [faultConsistent_of_running (hc.run.trans hr), hc.fault]
    exact (faultConsistent_of_running hr).mp hs.fault

theorem Inv.exec (hs : s.Inv) (hr : s.run = .running) {i : Instr} {t : State} (he : exec i s = .next t) : t.Inv := by
  rcases exec_cases i s with ⟨u, hu, hc⟩ | ⟨x, y, n, -, -, -, hu⟩
  · obtain rfl := Host.Outcome.next.inj (hu.symm.trans he)
    exact hs.completed hr hc
  · obtain rfl := Host.Outcome.next.inj (hu.symm.trans he)
    exact hs.takeFault (s.faultConsistent_takeAddressError s.index)

theorem Inv.step (hs : s.Inv) {t : State} (h : step s = .next t) : t.Inv := by
  rcases step_cases s with ⟨-, hstep⟩ | ⟨-, -, hstep⟩ | ⟨w, r, -, -, -, hd, hstep⟩ | ⟨w, i, hr, -, -, -, hstep⟩
  · simp [hstep] at h
  · obtain rfl := Host.Outcome.next.inj (hstep.symm.trans h)
    exact hs.takeFault (s.faultConsistent_takeAddressError s.pc)
  · obtain rfl := Host.Outcome.next.inj (hstep.symm.trans h)
    exact hs.takeFault (faultConsistent_takeDecodeError hd)
  · exact hs.exec hr (hstep.symm.trans h)

theorem inv_powerOn {p : Params} {f : Framebuffer} (hp : p.wf = true) (hf : f.wf p = true) : (powerOn p f).Inv where
  mem := rfl
  fb := hf
  params := hp
  fault := rfl

end State

/-- Settles O41, from every answer of a step: a completed instruction or one of the fault entries. -/
theorem stepKeepsInvariant : Obligations.StepKeepsInvariant :=
  fun _ _ hs h => hs.step h

/-- Settles O42: power-on gives every field but the framebuffer and the parameters its start-up value. -/
theorem resetMeetsInvariant : Obligations.ResetMeetsInvariant :=
  ⟨State.inv_powerOn rfl rfl, fun _ _ hp hf => State.inv_powerOn hp hf⟩

/-! ## What a run keeps -/

/-- What every step with a next state keeps holds after any number of steps. -/
theorem runSteps_induction {P : State → Prop} (hstep : ∀ s t, P s → step s = .next t → P t) (k : Nat) {s : State}
    (hs : P s) : P (runSteps k s).state := by
  induction k generalizing s with
  | zero => exact hs
  | succ k ih =>
    rcases specStep_cases s with ⟨-, h⟩ | ⟨w, i, t, -, -, -, -, hnext, -, h⟩ | ⟨cause, info, -, hnext, h⟩
    · rw [runSteps_succ_of_halted h]; exact hs
    · rw [runSteps_succ_of_ok h]; exact ih (hstep s t hs hnext)
    · rw [runSteps_succ_of_fault h]; exact hstep s _ hs hnext

theorem State.Inv.runSteps {s : State} (hs : s.Inv) (k : Nat) : (runSteps k s).state.Inv :=
  runSteps_induction (fun _ _ hs h => hs.step h) k hs

theorem State.Inv.hostReset {s : State} (hs : s.Inv) : s.hostReset.Inv :=
  State.inv_powerOn hs.params hs.fb

/-- A load writes memory alone, and byte by byte in canonical form (R213). -/
theorem State.Inv.load {s : State} (hs : s.Inv) (bytes : List Byte) : (load bytes s).1.Inv := by
  by_cases hlen : bytes.length ≤ 3584
  · rw [load_of_le s hlen]
    exact ⟨Memory.wf_writeRange bytes _ hs.mem, hs.fb, hs.params, hs.fault⟩
  · rw [load_of_gt s (Nat.lt_of_not_le hlen)]
    exact hs

/-- Settles O43, move by move. -/
theorem hostMovesKeepInvariant : Obligations.HostMovesKeepInvariant := by
  intro e e' m reply hs hmove
  rcases Session.move_state hmove with ⟨-, h⟩ | ⟨bytes, -, h⟩ | ⟨-, h⟩
  · exact h ▸ hs.hostReset
  · exact h ▸ hs.load bytes
  · exact h ▸ hs.runSteps _

/-- From `s` to `t` memory, I and the parameters of rule R7 stay as they are. -/
structure KeepsMemIndexParams (s t : State) : Prop where
  mem : t.mem = s.mem
  index : t.index = s.index
  params : t.params = s.params

theorem KeepsMemIndexParams.trans {s t u : State} (h : KeepsMemIndexParams s t) (k : KeepsMemIndexParams t u) :
    KeepsMemIndexParams s u :=
  ⟨k.mem.trans h.mem, k.index.trans h.index, k.params.trans h.params⟩

/-- Neither a completed instruction nor fault entry writes memory, I or the parameters. -/
theorem step_keepsMemIndexParams {s t : State} (hs : step s = .next t) : KeepsMemIndexParams s t := by
  rcases specStep_cases s with ⟨hr, -⟩ | ⟨w, i, u, -, -, -, -, hu, hc, -⟩ | ⟨cause, info, -, hu, -⟩
  · simp [step_of_halted hr] at hs
  · obtain rfl := Host.Outcome.next.inj (hu.symm.trans hs)
    exact ⟨hc.mem, hc.index, hc.params⟩
  · obtain rfl := Host.Outcome.next.inj (hu.symm.trans hs)
    exact ⟨rfl, rfl, rfl⟩

theorem runSteps_keepsMemIndexParams (k : Nat) (s : State) : KeepsMemIndexParams s (runSteps k s).state :=
  runSteps_induction (fun _ _ h hs => h.trans (step_keepsMemIndexParams hs)) k ⟨rfl, rfl, rfl⟩

/-- Settles O44, from one step by induction on their number. -/
theorem memoryAndIndexStayConstant : Obligations.MemoryAndIndexStayConstant := by
  intro k s
  obtain ⟨hmem, hindex, hparams⟩ := runSteps_keepsMemIndexParams k s
  exact ⟨hmem, fun a => by rw [hmem], hindex, hparams⟩

/-! ## The host's surface over a run -/

theorem applyCalls_append (surface : Framebuffer) (calls more : List SetPixel) :
    applyCalls surface (calls ++ more) = applyCalls (applyCalls surface calls) more :=
  List.foldl_append

theorem applyCalls_get_of_not_called {calls : List SetPixel} {p : Pixel} (surface : Framebuffer)
    (hp : ∀ c ∈ calls, c.at_ ≠ p) : (applyCalls surface calls).get p = surface.get p := by
  induction calls generalizing surface with
  | nil => rfl
  | cons c calls ih =>
    obtain ⟨hc, hcalls⟩ := List.forall_mem_cons.mp hp
    change (applyCalls (surface.set c.at_ c.isSet) calls).get p = _
    rw [ih _ hcalls, Framebuffer.get_set, if_neg hc.symm]

/-- After the calls of a run the surface shows the final framebuffer at every pixel that it showed before or that was called. -/
theorem applyCalls_runSteps_get {k : Nat} {s : State} {surface : Framebuffer} {p : Pixel}
    (hp : surface.get p = s.fb.get p ∨ ∃ c ∈ (runSteps k s).calls, c.at_ = p) :
    (applyCalls surface (runSteps k s).calls).get p = (runSteps k s).state.fb.get p := by
  induction k generalizing s surface with
  | zero => simpa [runSteps, applyCalls] using hp
  | succ k ih =>
    rcases specStep_cases s with ⟨-, h⟩ | ⟨w, i, t, -, -, -, -, hs, -, h⟩ | ⟨cause, info, -, -, h⟩
    · rw [runSteps_succ_of_halted h] at hp ⊢
      simpa [applyCalls] using hp
    · rw [runSteps_succ_of_ok h] at hp ⊢
      have hstep := applyCalls_mirrors (surface := surface) (p := p) (stepCalls_final hs) (stepCalls_cover hs)
      rw [applyCalls_append]
      refine ih ?_
      rcases hp with hshown | ⟨c, hc, hat⟩
      · exact .inl (hstep (.inl hshown))
      · rcases List.mem_append.mp hc with hc | hc
        · exact .inl (hstep (.inr ⟨c, hc, hat⟩))
        · exact .inr ⟨c, hc, hat⟩
    · rw [runSteps_succ_of_fault h] at hp ⊢
      simpa [applyCalls] using hp

/-- A surface that shows the framebuffer before a run shows it at a pixel without a call after the run, too. -/
theorem runSteps_calls_cover {k : Nat} {s : State} {p : Pixel} (hp : (runSteps k s).state.fb.get p ≠ s.fb.get p) :
    ∃ c ∈ (runSteps k s).calls, c.at_ = p := by
  by_contra hnone
  have hmirrors := applyCalls_runSteps_get (k := k) (p := p) (.inl (Eq.refl (s.fb.get p)))
  rw [applyCalls_get_of_not_called s.fb fun c hc hat => hnone ⟨c, hc, hat⟩] at hmirrors
  exact hp hmirrors.symm

/-- Settles O45: the mirroring by induction on the number of steps, and the calls of a split run and of another IPF from what the
run puts out. -/
theorem runMirrorsFramebuffer : Obligations.RunMirrorsFramebuffer := by
  refine fun s surface shown hshown => ⟨fun k p hp => ?_, fun k p => runSteps_calls_cover, fun m n p => ?_, fun j k p => ?_⟩
  · exact applyCalls_runSteps_get (hp.imp_left (hshown p))
  · split
    next hok => rw [runSteps_add_of_ok n hok, Batch.andThen, applyCalls_append]
    next hnot => rw [runSteps_add_of_not_ok n hnot]
  · change (applyCalls surface (runSteps k (s.withIpf j)).calls).get p = _
    rw [runSteps_withIpf]

end Sys2Proof.Machine
end
